-- ==== Sys2Proof/Word.lean ====
section
/-! DEFINITION. The widths of the machine: the 32-bit word and register (rules R1, R21), the byte that memory
is addressed by (R51), the 16 instruction bits `H` (R14) and the 4-bit register label (R20). -/

namespace Sys2Proof

/-- A 32-bit pattern: the content of a register, an address, the constant `K` (R5, R8). -/
abbrev Word := BitVec 32

/-- The smallest addressable unit of memory (R51). -/
abbrev Byte := BitVec 8

/-- The 16 instruction bits `H = b0 : b1` (R14). -/
abbrev Half := BitVec 16

/-- A register label. It is one nibble, so every label names a register and none is illegal (R20). -/
abbrev Label := Fin 16

end Sys2Proof
end

