-- ==== Sys2Proof/Config.lean ====
section
/-! DEFINITION. The parameters of rule R6 as plain data, and the launch that the host hands the machine (rules
R34, R240). The values that the spec takes for the parameters stand in Machine/Params.lean. -/

namespace Sys2Proof

/-- `SLOT_LAYOUT`: where the two instruction bytes stand in the 4-byte slot (R81, R82). -/
inductive SlotLayout where
  /-- `b0` at `pc`, `b1` at `pc + 1`, padding at `pc + 2` and `pc + 3` (R81). -/
  | memoryOrder
  /-- `b0` at `pc + 3`, `b1` at `pc + 2`, padding at `pc` and `pc + 1` (R82). -/
  | wordMsbFirst
  deriving DecidableEq, Repr

/-- `FLAGS_BIT_ORDER`: the weight of the source's bit 00 in the FLAGS word (R27). -/
inductive FlagsBitOrder where
  /-- Source bit `k` has weight `2^(31-k)`. -/
  | msb0
  /-- Source bit `k` has weight `2^k`. -/
  | lsb0
  deriving DecidableEq, Repr

/-- A run of consecutive byte addresses; `MEM` is given as a list of them. -/
structure Region where
  base : Nat
  size : Nat
  deriving DecidableEq, Repr

/-- The parameters of rule R6, but for `ENTRY`, `INIT_REGS` and `INIT_FLAGS`, which are part of the launch. -/
structure Config where
  /-- `SLOT_LAYOUT` (D1). -/
  slotLayout : SlotLayout
  /-- `LEN_SHORT` (D2): the bytes RIP advances over an instruction without constant (R24). -/
  lenShort : Word
  /-- `LEN_LONG` (D2): the bytes RIP advances over an instruction with constant (R24). -/
  lenLong : Word
  /-- `JUMP_ADDS_LEN` (D3). -/
  jumpAddsLen : Bool
  /-- `FLAGS_BIT_ORDER` (D4). -/
  flagsBitOrder : FlagsBitOrder
  /-- `CONTINUE_AFTER_TRAP` (D6). -/
  continueAfterTrap : Bool
  /-- `DIV0_ZERO_DIVIDEND` (D11): what divr and fixdivr answer for `0 / 0`. -/
  div0ZeroDividend : Word
  /-- `READC_IS_LOAD` (D17). -/
  readcIsLoad : Bool
  /-- `MEM` (D20): the byte addresses that hold memory. -/
  memMap : List Region
  deriving DecidableEq, Repr

/-- `INIT_FLAGS`: the six instruction-written flags at the start of a run (R34). -/
structure InitFlags where
  equal : Bool
  greaterThan : Bool
  lessThan : Bool
  zeroDiv : Bool
  overflow : Bool
  underflow : Bool
  deriving DecidableEq, Repr

/-- What the host hands the machine before the first step (R34, R240, R262): the parameters, `ENTRY`,
`INIT_REGS`, `INIT_FLAGS`, and the bytes it places in memory, each with its address. -/
structure Launch where
  config : Config
  entry : Word
  initRegs : Vector Word 16
  initFlags : InitFlags
  image : List (Word × Byte)
  deriving DecidableEq, Repr

end Sys2Proof
end

