-- ==== Sys2Proof/Machine/Params.lean ====
section
/-! DEFINITION. The values that the spec takes for its parameters (rule R6), and the launch that stands behind
`State.reset`. A later repair may change a value here. -/

namespace Sys2Proof

/-- The parameter values that rule R6 takes. -/
def Config.taken : Config where
  slotLayout := .memoryOrder
  lenShort := 4
  lenLong := 8
  jumpAddsLen := false
  flagsBitOrder := .msb0
  continueAfterTrap := false
  div0ZeroDividend := 0x7FFFFFFF
  readcIsLoad := false
  memMap := [⟨0, 2 ^ 32⟩]

/-- Is the byte address `a` in `MEM` (R58)? -/
def Config.inMem (c : Config) (a : Nat) : Bool :=
  c.memMap.any (fun r => decide (r.base ≤ a) && decide (a < r.base + r.size))

/-- DESIGN CHOICE (log 1, 2, 3, 4), unsafe: the launch with nothing placed. The spec gives `ENTRY`, `INIT_REGS`,
`INIT_FLAGS` and the launch memory no value (R34); here they are zero and empty. -/
def Launch.blank : Launch where
  config := Config.taken
  entry := 0
  initRegs := Vector.replicate 16 0
  initFlags := ⟨false, false, false, false, false, false⟩
  image := []

end Sys2Proof
end

