-- ==== Sys2Proof/Syntax.lean ====
section
/-! DEFINITION. The instructions: one constructor for each of the 61 rows of spec/opcode_table.json (rule R88).
The zero traps and the reserved encodings keep their register labels, which the machine ignores (R91, R92), so
that no bit of an encoding is lost. `k` is the 32-bit constant of a long instruction (R84). -/

namespace Sys2Proof

/-- An instruction of version v0.0.1. `P1` to `P4` is the instruction page and `Op<digit>` the opcode nibble of
a reserved encoding. -/
inductive Instr where
  /-- `0X YZ`: invalid_instruction (R130). -/
  | invalidP1 (x y z : Label)
  /-- `1X YZ`: addr (R131). -/
  | addr (x y z : Label)
  /-- `2X YZ`: subr (R132). -/
  | subr (x y z : Label)
  /-- `3X YZ`: mulr (R133). -/
  | mulr (x y z : Label)
  /-- `4X YZ`: divr (R134). -/
  | divr (x y z : Label)
  /-- `5X YZ`: fixmulr (R135). -/
  | fixmulr (x y z : Label)
  /-- `6X YZ`: fixdivr (R136). -/
  | fixdivr (x y z : Label)
  /-- `7X YZ`: reserved_instruction (R137). -/
  | reservedP1Op7 (x y z : Label)
  /-- `8X YZ`: reserved_instruction (R137). -/
  | reservedP1Op8 (x y z : Label)
  /-- `9X YZ`: reserved_instruction (R137). -/
  | reservedP1Op9 (x y z : Label)
  /-- `AX YZ`: reserved_instruction (R137). -/
  | reservedP1OpA (x y z : Label)
  /-- `BX YZ`: reserved_instruction (R137). -/
  | reservedP1OpB (x y z : Label)
  /-- `CX YZ`: reserved_instruction (R137). -/
  | reservedP1OpC (x y z : Label)
  /-- `DX YZ`: reserved_instruction (R137). -/
  | reservedP1OpD (x y z : Label)
  /-- `EX YZ`: reserved_instruction (R137). -/
  | reservedP1OpE (x y z : Label)
  /-- `F0 XY`: invalid_instruction (R150). -/
  | invalidP2 (x y : Label)
  /-- `F1 XY`: writer (R151). -/
  | writer (x y : Label)
  /-- `F2 XY`: readr (R152). -/
  | readr (x y : Label)
  /-- `F3 XY`: movr (R153). -/
  | movr (x y : Label)
  /-- `F4 XY`: cmpr (R154). -/
  | cmpr (x y : Label)
  /-- `F5 XY`: lshiftr (R155). -/
  | lshiftr (x y : Label)
  /-- `F6 XY`: ashiftr (R156). -/
  | ashiftr (x y : Label)
  /-- `F7 XY`: rollr (R157). -/
  | rollr (x y : Label)
  /-- `F8 XY`: andr (R158). -/
  | andr (x y : Label)
  /-- `F9 XY`: orr (R159). -/
  | orr (x y : Label)
  /-- `FA XY`: xorr (R160). -/
  | xorr (x y : Label)
  /-- `FB XY`: reserved_instruction (R161). -/
  | reservedP2OpB (x y : Label)
  /-- `FC XY`: reserved_instruction (R161). -/
  | reservedP2OpC (x y : Label)
  /-- `FD XY`: reserved_instruction (R161). -/
  | reservedP2OpD (x y : Label)
  /-- `FE XY`: reserved_instruction (R161). -/
  | reservedP2OpE (x y : Label)
  /-- `FF 0X`: invalid_instruction (R180). -/
  | invalidP3 (x : Label)
  /-- `FF 1X + const`: readc (R181). -/
  | readc (x : Label) (k : Word)
  /-- `FF 2X + const`: writec (R182). -/
  | writec (x : Label) (k : Word)
  /-- `FF 3X + const`: movc (R183). -/
  | movc (x : Label) (k : Word)
  /-- `FF 4X`: jmpr (R185). -/
  | jmpr (x : Label)
  /-- `FF 5X + const`: cmpc (R186). -/
  | cmpc (x : Label) (k : Word)
  /-- `FF 6X + const`: lshiftc (R187). -/
  | lshiftc (x : Label) (k : Word)
  /-- `FF 7X + const`: ashiftc (R188). -/
  | ashiftc (x : Label) (k : Word)
  /-- `FF 8X + const`: rollc (R189). -/
  | rollc (x : Label) (k : Word)
  /-- `FF 9X + const`: andc (R190). -/
  | andc (x : Label) (k : Word)
  /-- `FF AX + const`: orc (R191). -/
  | orc (x : Label) (k : Word)
  /-- `FF BX`: notr (R192). -/
  | notr (x : Label)
  /-- `FF CX + const`: xorc (R193). -/
  | xorc (x : Label) (k : Word)
  /-- `FF DX`: reserved_instruction (R194). -/
  | reservedP3OpD (x : Label)
  /-- `FF EX`: reserved_instruction (R194). -/
  | reservedP3OpE (x : Label)
  /-- `FF F0`: invalid_instruction (R210). -/
  | invalidP4
  /-- `FF F1`: nop (R211). -/
  | nop
  /-- `FF F2 + const`: jmp (R212). -/
  | jmp (k : Word)
  /-- `FF F3 + const`: je (R213). -/
  | je (k : Word)
  /-- `FF F4 + const`: jg (R214). -/
  | jg (k : Word)
  /-- `FF F5 + const`: jl (R215). -/
  | jl (k : Word)
  /-- `FF F6`: reserved_instruction (R216). -/
  | reservedP4Op6
  /-- `FF F7`: reserved_instruction (R216). -/
  | reservedP4Op7
  /-- `FF F8`: reserved_instruction (R216). -/
  | reservedP4Op8
  /-- `FF F9`: reserved_instruction (R216). -/
  | reservedP4Op9
  /-- `FF FA`: reserved_instruction (R216). -/
  | reservedP4OpA
  /-- `FF FB`: reserved_instruction (R216). -/
  | reservedP4OpB
  /-- `FF FC`: reserved_instruction (R216). -/
  | reservedP4OpC
  /-- `FF FD`: reserved_instruction (R216). -/
  | reservedP4OpD
  /-- `FF FE`: reserved_instruction (R216). -/
  | reservedP4OpE
  /-- `FF FF`: decoder_error (R217). -/
  | decoderError
  deriving DecidableEq, Repr

end Sys2Proof
end

