-- ==== Sys2Proof/WellFormed.lean ====
section
/-! DEFINITION. What well-formed means before anything runs. An `Instr` cannot be ill-formed: a label is one nibble
and names a register (R20), a constant is any 32-bit pattern (R84), and every constructor is a row of the opcode
table. The checks here are on the plain data around it: the byte image of an instruction as an assembler emits it
(R80, R83, R99), and the address map that a launch gives as `MEM` (R58). -/

namespace Sys2Proof

/-- The constant of a long instruction; short instructions have none (R84, R89). -/
def Instr.const? : Instr → Option Word
  | .readc _ k
  | .writec _ k
  | .movc _ k
  | .cmpc _ k
  | .lshiftc _ k
  | .ashiftc _ k
  | .rollc _ k
  | .andc _ k
  | .orc _ k
  | .xorc _ k
  | .jmp k
  | .je k
  | .jg k
  | .jl k => some k
  | .invalidP1 _ _ _
  | .addr _ _ _
  | .subr _ _ _
  | .mulr _ _ _
  | .divr _ _ _
  | .fixmulr _ _ _
  | .fixdivr _ _ _
  | .reservedP1Op7 _ _ _
  | .reservedP1Op8 _ _ _
  | .reservedP1Op9 _ _ _
  | .reservedP1OpA _ _ _
  | .reservedP1OpB _ _ _
  | .reservedP1OpC _ _ _
  | .reservedP1OpD _ _ _
  | .reservedP1OpE _ _ _
  | .invalidP2 _ _
  | .writer _ _
  | .readr _ _
  | .movr _ _
  | .cmpr _ _
  | .lshiftr _ _
  | .ashiftr _ _
  | .rollr _ _
  | .andr _ _
  | .orr _ _
  | .xorr _ _
  | .reservedP2OpB _ _
  | .reservedP2OpC _ _
  | .reservedP2OpD _ _
  | .reservedP2OpE _ _
  | .invalidP3 _
  | .jmpr _
  | .notr _
  | .reservedP3OpD _
  | .reservedP3OpE _
  | .invalidP4
  | .nop
  | .reservedP4Op6
  | .reservedP4Op7
  | .reservedP4Op8
  | .reservedP4Op9
  | .reservedP4OpA
  | .reservedP4OpB
  | .reservedP4OpC
  | .reservedP4OpD
  | .reservedP4OpE
  | .decoderError => none

/-- How many bytes an instruction occupies: 4, or 8 with a constant (R80, R89). -/
def Instr.lengthBytes (i : Instr) : Nat := if i.const?.isSome then 8 else 4

/-- The offsets of the two padding bytes in a slot (R81, R82). -/
def SlotLayout.paddingAt : SlotLayout → List Nat
  | .memoryOrder => [2, 3]
  | .wordMsbFirst => [0, 1]

/-- The image of `i` has the length of `i`, and its padding bytes are zero, as an assembler writes them (R80, R83). -/
def Instr.imageWellFormed (i : Instr) (l : SlotLayout) (image : List Byte) : Bool :=
  image.length == i.lengthBytes && l.paddingAt.all (fun n => image[n]? == some 0)

/-- A region is not empty and lies in the address space `0 .. 2^32 - 1` (R50, R58). -/
def Region.wellFormed (r : Region) : Bool := decide (0 < r.size) && decide (r.base + r.size ≤ 2 ^ 32)

/-- Every region of `MEM` is well-formed. -/
def Config.wellFormed (c : Config) : Bool := c.memMap.all Region.wellFormed

end Sys2Proof
end

