-- ==== Sys2Proof/Decode.lean ====
section
/-! DEFINITION. Decoding and encoding (30_encoding.md): the decoder on the 16 instruction bits `H` (R86, R88), total
on all 65536 values; the decoder on bytes, which rejects a cut-off image by name; the encoder of rule R99; and
`decodeTableWord`, the decoder on the words of spec/opcode_table.json. -/

namespace Sys2Proof

/-! ## Bytes and words -/

/-- Byte `n` of a word: `v[8n+7:8n]` (R11). -/
def byteOf (v : Word) (n : Nat) : Byte := v.extractLsb' (8 * n) 8

/-- The word `b3 : b2 : b1 : b0`; `b0` stands at the lowest address (R11, R52). -/
def wordOf (b0 b1 b2 b3 : Byte) : Word := b3 ++ b2 ++ b1 ++ b0

/-- The four bytes of a word in ascending address order (R52). -/
def bytesOf (v : Word) : List Byte := [byteOf v 0, byteOf v 1, byteOf v 2, byteOf v 3]

/-- `H = b0 : b1` (R14). -/
def halfOf (b0 b1 : Byte) : Half := b0 ++ b1

/-- The instruction bits in the fetched word `W` (R81; the other layout: R82). -/
def slotHead : SlotLayout → Word → Half
  | .memoryOrder, w => halfOf (byteOf w 0) (byteOf w 1)
  | .wordMsbFirst, w => halfOf (byteOf w 3) (byteOf w 2)

/-! ## The decoder on `H` -/

/-- The nibble of `H` whose lowest bit is bit `lo` (R14). -/
def nibble (h : Half) (lo : Nat) : Label := Fin.ofNat 16 (h.toNat / 2 ^ lo)

/-- The opcodes of page 1 (R88). The nibble `F` leads to the next page. -/
def decodePage1 (op x y z : Label) : Option Instr :=
  match op.val with
  | 0 => some (.invalidP1 x y z)
  | 1 => some (.addr x y z)
  | 2 => some (.subr x y z)
  | 3 => some (.mulr x y z)
  | 4 => some (.divr x y z)
  | 5 => some (.fixmulr x y z)
  | 6 => some (.fixdivr x y z)
  | 7 => some (.reservedP1Op7 x y z)
  | 8 => some (.reservedP1Op8 x y z)
  | 9 => some (.reservedP1Op9 x y z)
  | 10 => some (.reservedP1OpA x y z)
  | 11 => some (.reservedP1OpB x y z)
  | 12 => some (.reservedP1OpC x y z)
  | 13 => some (.reservedP1OpD x y z)
  | 14 => some (.reservedP1OpE x y z)
  | _ => none

/-- The opcodes of page 2 (R88). The nibble `F` leads to the next page. -/
def decodePage2 (op x y : Label) : Option Instr :=
  match op.val with
  | 0 => some (.invalidP2 x y)
  | 1 => some (.writer x y)
  | 2 => some (.readr x y)
  | 3 => some (.movr x y)
  | 4 => some (.cmpr x y)
  | 5 => some (.lshiftr x y)
  | 6 => some (.ashiftr x y)
  | 7 => some (.rollr x y)
  | 8 => some (.andr x y)
  | 9 => some (.orr x y)
  | 10 => some (.xorr x y)
  | 11 => some (.reservedP2OpB x y)
  | 12 => some (.reservedP2OpC x y)
  | 13 => some (.reservedP2OpD x y)
  | 14 => some (.reservedP2OpE x y)
  | _ => none

/-- The opcodes of page 3 (R88). The nibble `F` leads to the next page. -/
def decodePage3 (op x : Label) (k : Word) : Option Instr :=
  match op.val with
  | 0 => some (.invalidP3 x)
  | 1 => some (.readc x k)
  | 2 => some (.writec x k)
  | 3 => some (.movc x k)
  | 4 => some (.jmpr x)
  | 5 => some (.cmpc x k)
  | 6 => some (.lshiftc x k)
  | 7 => some (.ashiftc x k)
  | 8 => some (.rollc x k)
  | 9 => some (.andc x k)
  | 10 => some (.orc x k)
  | 11 => some (.notr x)
  | 12 => some (.xorc x k)
  | 13 => some (.reservedP3OpD x)
  | 14 => some (.reservedP3OpE x)
  | _ => none

/-- The opcodes of page 4 (R88). The nibble `F` leads to the next page. -/
def decodePage4 (op : Label) (k : Word) : Option Instr :=
  match op.val with
  | 0 => some .invalidP4
  | 1 => some .nop
  | 2 => some (.jmp k)
  | 3 => some (.je k)
  | 4 => some (.jg k)
  | 5 => some (.jl k)
  | 6 => some .reservedP4Op6
  | 7 => some .reservedP4Op7
  | 8 => some .reservedP4Op8
  | 9 => some .reservedP4Op9
  | 10 => some .reservedP4OpA
  | 11 => some .reservedP4OpB
  | 12 => some .reservedP4OpC
  | 13 => some .reservedP4OpD
  | 14 => some .reservedP4OpE
  | _ => none

/-- The decoder (R86): it walks the nibbles from the top and stops at the first that is not `F`. `k` is the constant
that follows the slot, which only long instructions take. -/
def decode (h : Half) (k : Word) : Instr :=
  match decodePage1 (nibble h 12) (nibble h 8) (nibble h 4) (nibble h 0) with
  | some i => i
  | none =>
    match decodePage2 (nibble h 8) (nibble h 4) (nibble h 0) with
    | some i => i
    | none =>
      match decodePage3 (nibble h 4) (nibble h 0) k with
      | some i => i
      | none =>
        match decodePage4 (nibble h 0) k with
        | some i => i
        | none => .decoderError

/-- Whether a constant follows the slot. It is a function of `H` alone (R89, R94). -/
def hasConst (h : Half) : Bool := (decode h 0).const?.isSome

/-! ## The decoder on bytes -/

/-- Why an image of bytes is rejected. Both are cut-off images; no value of `H` is rejected (R86). -/
inductive DecodeError where
  /-- Fewer than the four bytes of a slot. -/
  | cutOffSlot
  /-- A long instruction with fewer than four bytes of constant. -/
  | cutOffConstant
  deriving DecidableEq, Repr

/-- The first instruction of a list of bytes and the bytes after it (R80, R81, R86). -/
def decodeBytes (l : SlotLayout) : List Byte → Except DecodeError (Instr × List Byte)
  | b0 :: b1 :: b2 :: b3 :: rest =>
    if hasConst (slotHead l (wordOf b0 b1 b2 b3)) then
      match rest with
      | k0 :: k1 :: k2 :: k3 :: rest' =>
        .ok (decode (slotHead l (wordOf b0 b1 b2 b3)) (wordOf k0 k1 k2 k3), rest')
      | _ => .error .cutOffConstant
    else .ok (decode (slotHead l (wordOf b0 b1 b2 b3)) 0, rest)
  | _ => .error .cutOffSlot

/-! ## The encoder -/

/-- A byte of two nibbles. -/
def byteOfNibbles (hi lo : Label) : Byte := BitVec.ofNat 8 (hi.val * 16 + lo.val)

/-- `b0`, `b1` on page 1 (R99). -/
def headPage1 (op x y z : Label) : Byte × Byte := (byteOfNibbles op x, byteOfNibbles y z)

/-- `b0`, `b1` on page 2 (R99). -/
def headPage2 (op x y : Label) : Byte × Byte := (byteOfNibbles 15 op, byteOfNibbles x y)

/-- `b0`, `b1` on page 3 (R99). -/
def headPage3 (op x : Label) : Byte × Byte := (0xFF, byteOfNibbles op x)

/-- `b0`, `b1` on page 4 (R99), and of the error encoding `FF FF` (R217). -/
def headPage4 (op : Label) : Byte × Byte := (0xFF, byteOfNibbles 15 op)

/-- The two instruction bytes `b0`, `b1` of an instruction (R88, R99). -/
def Instr.head : Instr → Byte × Byte
  | .invalidP1 x y z => headPage1 0 x y z
  | .addr x y z => headPage1 1 x y z
  | .subr x y z => headPage1 2 x y z
  | .mulr x y z => headPage1 3 x y z
  | .divr x y z => headPage1 4 x y z
  | .fixmulr x y z => headPage1 5 x y z
  | .fixdivr x y z => headPage1 6 x y z
  | .reservedP1Op7 x y z => headPage1 7 x y z
  | .reservedP1Op8 x y z => headPage1 8 x y z
  | .reservedP1Op9 x y z => headPage1 9 x y z
  | .reservedP1OpA x y z => headPage1 10 x y z
  | .reservedP1OpB x y z => headPage1 11 x y z
  | .reservedP1OpC x y z => headPage1 12 x y z
  | .reservedP1OpD x y z => headPage1 13 x y z
  | .reservedP1OpE x y z => headPage1 14 x y z
  | .invalidP2 x y => headPage2 0 x y
  | .writer x y => headPage2 1 x y
  | .readr x y => headPage2 2 x y
  | .movr x y => headPage2 3 x y
  | .cmpr x y => headPage2 4 x y
  | .lshiftr x y => headPage2 5 x y
  | .ashiftr x y => headPage2 6 x y
  | .rollr x y => headPage2 7 x y
  | .andr x y => headPage2 8 x y
  | .orr x y => headPage2 9 x y
  | .xorr x y => headPage2 10 x y
  | .reservedP2OpB x y => headPage2 11 x y
  | .reservedP2OpC x y => headPage2 12 x y
  | .reservedP2OpD x y => headPage2 13 x y
  | .reservedP2OpE x y => headPage2 14 x y
  | .invalidP3 x => headPage3 0 x
  | .readc x _ => headPage3 1 x
  | .writec x _ => headPage3 2 x
  | .movc x _ => headPage3 3 x
  | .jmpr x => headPage3 4 x
  | .cmpc x _ => headPage3 5 x
  | .lshiftc x _ => headPage3 6 x
  | .ashiftc x _ => headPage3 7 x
  | .rollc x _ => headPage3 8 x
  | .andc x _ => headPage3 9 x
  | .orc x _ => headPage3 10 x
  | .notr x => headPage3 11 x
  | .xorc x _ => headPage3 12 x
  | .reservedP3OpD x => headPage3 13 x
  | .reservedP3OpE x => headPage3 14 x
  | .invalidP4 => headPage4 0
  | .nop => headPage4 1
  | .jmp _ => headPage4 2
  | .je _ => headPage4 3
  | .jg _ => headPage4 4
  | .jl _ => headPage4 5
  | .reservedP4Op6 => headPage4 6
  | .reservedP4Op7 => headPage4 7
  | .reservedP4Op8 => headPage4 8
  | .reservedP4Op9 => headPage4 9
  | .reservedP4OpA => headPage4 10
  | .reservedP4OpB => headPage4 11
  | .reservedP4OpC => headPage4 12
  | .reservedP4OpD => headPage4 13
  | .reservedP4OpE => headPage4 14
  | .decoderError => headPage4 15

/-- The slot of two instruction bytes with zero padding (R81, R82, R83). -/
def slotBytes : SlotLayout → Byte × Byte → List Byte
  | .memoryOrder, b => [b.1, b.2, 0, 0]
  | .wordMsbFirst, b => [0, 0, b.2, b.1]

/-- The bytes of an instruction in ascending address order (R99). -/
def encode (l : SlotLayout) (i : Instr) : List Byte :=
  slotBytes l i.head ++
    match i.const? with
    | some k => bytesOf k
    | none => []

/-! ## The words of the opcode table -/

/-- The eight bytes that an instruction of the opcode table occupies. Bits 15..0 of `w` are `H`, bits 31..16 the
padding, bits 63..32 the constant; bits from `nbits` on are 0 (log 26). -/
def tableBytes (l : SlotLayout) (nbits w : Nat) : List Byte :=
  let v := w % 2 ^ nbits
  let head := (BitVec.ofNat 8 (v / 2 ^ 8), BitVec.ofNat 8 v)
  let pad := (BitVec.ofNat 8 (v / 2 ^ 16), BitVec.ofNat 8 (v / 2 ^ 24))
  (match l with
    | .memoryOrder => [head.1, head.2, pad.1, pad.2]
    | .wordMsbFirst => [pad.1, pad.2, head.2, head.1]) ++ bytesOf (BitVec.ofNat 32 (v / 2 ^ 32))

/-- What the decoder reads from an instruction of the opcode table, laid out as the machine stores it. -/
def decodeTableWord (nbits w : Nat) : Option Instr :=
  match decodeBytes Config.taken.slotLayout (tableBytes Config.taken.slotLayout nbits w) with
  | .ok r => some r.1
  | .error _ => none

end Sys2Proof
end

