-- ==== Sys2Proof/Machine/Memory.lean ====
section
/-! DEFINITION. Memory as data: the bytes that differ from what an unplaced byte reads as, each with its address, in
one canonical form (R32, R50, R51). Which addresses exist is `MEM` (Machine/Params.lean), not this file's. -/

namespace Sys2Proof.Machine

/-- Memory: (address, byte) pairs, addresses strictly rising, none equal to what an unlisted address reads as. -/
abbrev Memory := List Host.Cell

/-- DESIGN CHOICE (log 4), unsafe: what a byte reads as that neither the host nor a store has placed. The spec gives
it no value (R34, U14). -/
def Memory.unplaced : Byte := 0

/-- `Mem[a]` (R11). -/
def Memory.read : Memory → Nat → Byte
  | [], _ => Memory.unplaced
  | c :: rest, a => if c.1 = a then c.2 else Memory.read rest a

/-- Put a cell before the first cell with a higher address. -/
def Memory.insertCell (a : Nat) (v : Byte) : Memory → Memory
  | [] => [(a, v)]
  | c :: rest => if a < c.1 then (a, v) :: c :: rest else c :: Memory.insertCell a v rest

/-- `Mem[a] <- v` (R11). Writing what an unlisted address reads as removes the entry. -/
def Memory.write (m : Memory) (a : Nat) (v : Byte) : Memory :=
  if v = Memory.unplaced then m.filter (fun c => c.1 != a)
  else Memory.insertCell a v (m.filter (fun c => c.1 != a))

/-- Place bytes at addresses, in order. -/
def Memory.place (m : Memory) (image : List (Word × Byte)) : Memory :=
  image.foldl (fun acc c => acc.write c.1.toNat c.2) m

/-- The canonical form: addresses strictly rise and lie in the address space, and no entry equals what an unlisted
address reads as. Equal memories are then equal data. -/
abbrev Memory.wf (m : Memory) : Prop :=
  m.Pairwise (fun c d => c.1 < d.1) ∧ ∀ c ∈ m, c.2 ≠ Memory.unplaced ∧ c.1 < 2 ^ 32

end Sys2Proof.Machine
end

