-- ==== Sys2Proof/Machine/State.lean ====
section
/-! DEFINITION. The state of the machine as plain data (10_state.md R20 to R35), the reasons a step can stop, and the
state at launch and at reset. -/

namespace Sys2Proof.Machine

/-- FLAGS: the eight defined flags, held by name (R27), and the reserved source bits 08 through 1F (R26, R29). -/
structure Flags where
  equal : Bool
  greaterThan : Bool
  lessThan : Bool
  reservedInstruction : Bool
  invalidInstruction : Bool
  zeroDiv : Bool
  overflow : Bool
  underflow : Bool
  /-- Source bits 08 through 1F; source bit `k` is bit `31 - k` of this field (R27 under `msb0`). -/
  reserved : BitVec 24
  deriving DecidableEq, Repr

/-- The decoder's verdict on an instruction, the handler's `opcode` (R117). -/
inductive Verdict where
  /-- One of the 33 operations. -/
  | defined
  /-- `INVALID_ZERO`: opcode nibble 0 on any page. -/
  | invalidZero
  /-- `INVALID_NEXT_INSTR_PAGE`: `FF FF`. -/
  | invalidNextInstrPage
  /-- `INVALID_RESERVED`: a reserved encoding. -/
  | invalidReserved
  deriving DecidableEq, Repr

/-- Why a run has ended (R118, R120): which of the two flags the last step set. -/
inductive StopReason where
  | invalidInstruction
  | reservedInstruction
  deriving DecidableEq, Repr

/-- The whole state. -/
structure State where
  /-- `x[0]` to `x[15]` (R20, R21). -/
  regs : Vector Word 16
  /-- RIP (R23). -/
  pc : Word
  /-- FLAGS (R26). -/
  flags : Flags
  /-- `Mem` (R32). -/
  mem : Memory
  /-- "The run has ended", with its reason (R33, R118). -/
  ended : Option StopReason
  /-- The parameters of rule R6. They are no state of the spec (R18); they stand here, never written, because `exec`
  takes no configuration of its own and a claim must be able to fix them or hold for all of them (log 5). -/
  cfg : Config
  deriving DecidableEq, Repr

/-- The ways a step stops with a fault. -/
inductive Fault where
  /-- `MemoryFault(address)` (R58, R234): raised by the fetch of a slot or of a constant and by the data access of
  writer, readr, writec (and of readc under `READC_IS_LOAD`) at the first byte address outside `MEM`. Safe: nothing
  is invented, no state changes and the run is over. -/
  | memoryFault (address : Word)
  deriving DecidableEq, Repr

/-- The ways a step is refused. -/
inductive Refusal where
  /-- Raised by `exec` for an instruction without a meaning. Safe. No arm raises it. -/
  | notModelled (mnemonic : String)
  /-- Raised by `step` when the run has ended: the machine takes no further step (R118). Safe: there is no next state
  to be wrong about (log 9). -/
  | runEnded (reason : StopReason)
  deriving DecidableEq, Repr

/-- What a step or an instruction answers. -/
abbrev Result := Host.Outcome State Fault Refusal

/-- The state in which the host starts a run (R34, R240, R262): its own registers, flags, entry point and image, the
two trap flags and the reserved FLAGS bits 0, and the run not ended. -/
def State.launch (l : Launch) : State where
  regs := l.initRegs
  pc := l.entry
  flags :=
    { equal := l.initFlags.equal
      greaterThan := l.initFlags.greaterThan
      lessThan := l.initFlags.lessThan
      reservedInstruction := false
      invalidInstruction := false
      zeroDiv := l.initFlags.zeroDiv
      overflow := l.initFlags.overflow
      underflow := l.initFlags.underflow
      reserved := 0 }
  mem := Memory.place [] l.image
  ended := none
  cfg := l.config

/-- The machine right after reset. The spec describes no reset (R260); this is the launch with nothing placed (log 1
to 4). -/
def State.reset : State := State.launch Launch.blank

end Sys2Proof.Machine
end

