-- ==== Sys2Proof/Machine/Flags.lean ====
section
/-! DEFINITION. How each flag is computed (R28, R117, R119), and the FLAGS word that the host sees (R27). -/

namespace Sys2Proof.Machine

/-- cmpr, cmpc: the three comparison flags from the exact signed difference (R154, R186, D14). -/
def Flags.compared (f : Flags) (d : Int) : Flags :=
  { f with equal := decide (d = 0), greaterThan := decide (0 < d), lessThan := decide (d < 0) }

/-- addr, subr, fixmulr: overflow and underflow from the exact result (R131, R132, R135). -/
def Flags.ranged (f : Flags) (e : Int) : Flags :=
  { f with overflow := decide (2 ^ 31 - 1 < e), underflow := decide (e < -2 ^ 31) }

/-- divr, fixdivr: zero_div from the divisor (R134, R136). -/
def Flags.divided (f : Flags) (b : Int) : Flags := { f with zeroDiv := decide (b = 0) }

/-- The flags register handler (R117): every instruction writes the two trap flags from the verdict and the reserved
bits to 0. The other six flags are written by the instructions that name them (R119, D5). -/
def Flags.handled (f : Flags) (v : Verdict) : Flags :=
  { f with
    reservedInstruction := decide (v = .invalidReserved)
    invalidInstruction := decide (v = .invalidZero) || decide (v = .invalidNextInstrPage)
    reserved := 0 }

/-- A mask where a flag is 1, and nothing where it is 0. -/
def flagMask (b : Bool) (mask : Word) : Word := if b then mask else 0

/-- The FLAGS word as the host reads it (R27). The reserved bits keep their source numbers under both orders. -/
def Flags.word (order : FlagsBitOrder) (f : Flags) : Word :=
  match order with
  | .msb0 =>
    flagMask f.equal 0x80000000 ||| flagMask f.greaterThan 0x40000000 ||| flagMask f.lessThan 0x20000000 |||
      flagMask f.reservedInstruction 0x10000000 ||| flagMask f.invalidInstruction 0x08000000 |||
      flagMask f.zeroDiv 0x04000000 ||| flagMask f.overflow 0x02000000 ||| flagMask f.underflow 0x01000000 |||
      f.reserved.setWidth 32
  | .lsb0 =>
    flagMask f.equal 0x1 ||| flagMask f.greaterThan 0x2 ||| flagMask f.lessThan 0x4 |||
      flagMask f.reservedInstruction 0x8 ||| flagMask f.invalidInstruction 0x10 |||
      flagMask f.zeroDiv 0x20 ||| flagMask f.overflow 0x40 ||| flagMask f.underflow 0x80 |||
      (f.reserved.reverse.setWidth 32 <<< 8)

end Sys2Proof.Machine
end

