-- ==== Sys2Proof/Machine/Operands.lean ====
section
/-! DEFINITION. What an instruction computes from its operands: the readings of a pattern (R8), the arithmetic
primitives (R12), and the results of the divide, shift and roll instructions. -/

namespace Sys2Proof.Machine

/-- `INT_MAX` (R8). -/
def intMax : Word := 0x7FFFFFFF

/-- `INT_MIN` (R8). -/
def intMin : Word := 0x80000000

/-- `s32(v)`, the two's complement reading (R8). -/
def s32 (v : Word) : Int := v.toInt

/-- `wrap32(n)`, the pattern whose unsigned reading is `n mod 2^32` (R8). -/
def wrap32 (n : Int) : Word := BitVec.ofInt 32 n

/-- `tdiv(a, b)`, the quotient rounded toward zero (R12). -/
def tdiv (a b : Int) : Int := a.tdiv b

/-- `lsl32(v, n)` for `n ≤ 31` (R12). -/
def lsl32 (v : Word) (n : Nat) : Word := v <<< n

/-- `lsr32(v, n)` for `n ≤ 31` (R12). -/
def lsr32 (v : Word) (n : Nat) : Word := v >>> n

/-- `asr32(v, n)`: the floor of `s32(v) / 2^n`; for `n ≥ 31` the sign alone (R12). -/
def asr32 (v : Word) (n : Nat) : Word :=
  if 31 ≤ n then (if s32 v < 0 then 0xFFFFFFFF else 0) else wrap32 (s32 v / 2 ^ n)

/-- `rol32(v, n)` for `n ≤ 31` (R12). -/
def rol32 (v : Word) (n : Nat) : Word := if n = 0 then v else lsl32 v n ||| lsr32 v (32 - n)

/-- `ror32(v, n)` for `n ≤ 31` (R12). -/
def ror32 (v : Word) (n : Nat) : Word := rol32 v ((32 - n) % 32)

/-- The logical shift by a signed count (R155, D15): left if positive, else right; 32 or more shifts every bit out. -/
def logicalShift (v count : Word) : Word :=
  if 32 ≤ (s32 count).natAbs then 0
  else if 0 < s32 count then lsl32 v (s32 count).natAbs
  else lsr32 v (s32 count).natAbs

/-- The arithmetic shift by a signed count (R156, D15): `s32(v) * 2^n` narrowed if positive, which is 0 from 32 on,
else the arithmetic right shift. -/
def arithmeticShift (v count : Word) : Word :=
  if 0 < s32 count then
    (if 32 ≤ (s32 count).natAbs then 0 else wrap32 (s32 v * 2 ^ (s32 count).natAbs))
  else asr32 v (s32 count).natAbs

/-- The roll by a signed count (R157, D16): left if positive, else right, by the magnitude modulo 32. -/
def roll (v count : Word) : Word :=
  if 0 < s32 count then rol32 v ((s32 count).natAbs % 32) else ror32 v ((s32 count).natAbs % 32)

/-- What divr and fixdivr store (R134, R136): `q` narrowed when the divisor `b` is not zero; else the largest or the
smallest signed number by the sign of the dividend `a`, and `zeroByZero` when both are zero (D11). -/
def quotientOr (zeroByZero : Word) (a b q : Int) : Word :=
  if b = 0 then (if 0 < a then intMax else if a < 0 then intMin else zeroByZero) else wrap32 q

/-- The exact product of two registers (R133). -/
def product (a b : Word) : Int := s32 a * s32 b

/-- `P[63:32]` of the 64-bit pattern of a product (R133). -/
def highWord (p : Int) : Word := (BitVec.ofInt 64 p).extractLsb' 32 32

/-- `P[31:0]` of the 64-bit pattern of a product (R133). -/
def lowWord (p : Int) : Word := (BitVec.ofInt 64 p).extractLsb' 0 32

/-- The 16.16 product before narrowing: the floor of the product over `2^16` (R135, D9). -/
def fixedProduct (a b : Word) : Int := product a b / 2 ^ 16

end Sys2Proof.Machine
end

