-- ==== Sys2Proof/Machine/Ops.lean ====
section
/-! DEFINITION. The operations that every meaning is written over: registers, words of memory, and the end of a step
(advance, flags handler, end of the run), which is also how an invalid or reserved instruction is taken. The machine has
no trap entry, saves nothing and has no return from a trap (R230, R236, R237), so there is no operation for them. -/

namespace Sys2Proof.Machine

/-! ## Registers -/

/-- `x[r]` (R10). -/
def State.reg (s : State) (r : Label) : Word := s.regs[r.val]

/-- `x[r] <- v` (R10). No register is hardwired (R22). -/
def State.setReg (s : State) (r : Label) (v : Word) : State := { s with regs := s.regs.set r.val v }

/-! ## Memory -/

/-- `Mem[a]` (R11). -/
def State.byteAt (s : State) (a : Word) : Byte := s.mem.read a.toNat

/-- Is the byte address `a` in `MEM` (R58)? -/
def State.mapped (s : State) (a : Word) : Bool := s.cfg.inMem a.toNat

/-- The four byte addresses of a word at `a`, modulo 2^32 (R11, R59). -/
def wordAddrs (a : Word) : List Word := [a, a + 1, a + 2, a + 3]

/-- The first address of the word at `a` that is not in `MEM` (R11). -/
def State.firstUnmapped (s : State) (a : Word) : Option Word := (wordAddrs a).find? (fun b => !s.mapped b)

/-- The word at `a` as it stands in memory, little endian (R11, R52). -/
def State.wordAt (s : State) (a : Word) : Word :=
  wordOf (s.byteAt a) (s.byteAt (a + 1)) (s.byteAt (a + 2)) (s.byteAt (a + 3))

/-- The state with the word `v` stored at `a`, little endian (R11, R52). -/
def State.putWord (s : State) (a v : Word) : State :=
  { s with mem := s.mem.place ((wordAddrs a).zip (bytesOf v)) }

/-- `MemRead(a, 4)` (R11): the word at `a`, or `MemoryFault` at the first address outside `MEM`. -/
def State.memRead (s : State) (a : Word) : Except Fault Word :=
  match s.firstUnmapped a with
  | some b => .error (.memoryFault b)
  | none => .ok (s.wordAt a)

/-- `MemWrite(a, 4, v)` (R11): all four bytes are stored, or `MemoryFault` and none. -/
def State.memWrite (s : State) (a v : Word) : Except Fault State :=
  match s.firstUnmapped a with
  | some b => .error (.memoryFault b)
  | none => .ok (s.putWord a v)

/-- Go on with what an access answers; a `MemoryFault` abandons the step (R113). -/
def orFault {α : Type} (r : Except Fault α) (next : α → Result) : Result :=
  match r with
  | .ok v => next v
  | .error f => .fault f

/-! ## Flag writes -/

/-- The comparison flags from the difference `d` (R154). -/
def State.setCompared (s : State) (d : Int) : State := { s with flags := s.flags.compared d }

/-- overflow and underflow from the exact result `e` (R131). -/
def State.setRanged (s : State) (e : Int) : State := { s with flags := s.flags.ranged e }

/-- zero_div from the divisor `b` (R134). -/
def State.setDivided (s : State) (b : Int) : State := { s with flags := s.flags.divided b }

/-! ## The end of a step -/

/-- The reason for which a verdict ends the run (R118). -/
def Verdict.stopReason : Verdict → Option StopReason
  | .defined => none
  | .invalidZero => some .invalidInstruction
  | .invalidNextInstrPage => some .invalidInstruction
  | .invalidReserved => some .reservedInstruction

/-- Whether the run has ended after a step with verdict `v` (R118): a trap ends it, unless `CONTINUE_AFTER_TRAP`. -/
def State.endedAfter (s : State) (v : Verdict) : Option StopReason :=
  if s.cfg.continueAfterTrap then s.ended
  else
    match v.stopReason with
    | some r => some r
    | none => s.ended

/-- Parts 4 to 6 of the cycle (R110): `pc` becomes `t`, the flags handler runs on the verdict, and the run ends if the
verdict is a trap. -/
def State.conclude (s : State) (v : Verdict) (t : Word) : State :=
  { s with pc := t, flags := s.flags.handled v, ended := s.endedAfter v }

/-- A defined instruction that is not a taken jump: `pc <- wrap32(pc + len)` (R114). -/
def State.advance (s : State) (len : Word) : Result := .next (s.conclude .defined (s.pc + len))

/-- A taken jump of an instruction of length `len`: `pc` is the target exactly, or the target plus `len` under
`JUMP_ADDS_LEN` (R115, D3). -/
def State.jump (s : State) (len target : Word) : Result :=
  .next (s.conclude .defined (if s.cfg.jumpAddsLen then target + len else target))

/-- `raise InvalidInstruction(H)` and `raise ReservedInstruction(H)` (R13, R116, R118): the one operation by which a
trapping encoding is taken. Nothing is read or written but the two trap flags, `pc` (advanced by `LEN_SHORT`, D7) and
the end of the run. -/
def State.trap (s : State) (v : Verdict) : Result := .next (s.conclude v (s.pc + s.cfg.lenShort))

end Sys2Proof.Machine
end

