-- ==== Sys2Proof/Machine/OneRegister.lean ====
section
/-! DEFINITION. The third instruction page, the 1 register operations (43_one_register.md): one meaning for each row. -/

namespace Sys2Proof.Machine

/-- invalid_instruction, zero trap, opcode 0 (R180). -/
def execInvalidP3 (_x : Label) (s : State) : Result := s.trap .invalidZero

/-- readc: `x[X] <- K` (R181); under `READC_IS_LOAD`, `x[X] <- MemRead(K, 4)` (D17). -/
def execReadc (x : Label) (k : Word) (s : State) : Result :=
  if s.cfg.readcIsLoad then orFault (s.memRead k) fun v => (s.setReg x v).advance s.cfg.lenLong
  else (s.setReg x k).advance s.cfg.lenLong

/-- writec: `MemWrite(K, 4, x[X])` (R182, D18). -/
def execWritec (x : Label) (k : Word) (s : State) : Result :=
  orFault (s.memWrite k (s.reg x)) fun t => t.advance s.cfg.lenLong

/-- movc: `x[X] <- K` (R183). -/
def execMovc (x : Label) (k : Word) (s : State) : Result :=
  (s.setReg x k).advance s.cfg.lenLong

/-- jmpr: `pc <- x[X]` (R185). -/
def execJmpr (x : Label) (s : State) : Result :=
  s.jump s.cfg.lenShort (s.reg x)

/-- cmpc: the comparison flags from `s32(x[X]) - s32(K)`; no register is written (R186, D14). -/
def execCmpc (x : Label) (k : Word) (s : State) : Result :=
  (s.setCompared (s32 (s.reg x) - s32 k)).advance s.cfg.lenLong

/-- lshiftc: `x[X]` shifted logically by the signed count `K` (R187, D15). -/
def execLshiftc (x : Label) (k : Word) (s : State) : Result :=
  (s.setReg x (logicalShift (s.reg x) k)).advance s.cfg.lenLong

/-- ashiftc: `x[X]` shifted arithmetically by the signed count `K` (R188, D15). -/
def execAshiftc (x : Label) (k : Word) (s : State) : Result :=
  (s.setReg x (arithmeticShift (s.reg x) k)).advance s.cfg.lenLong

/-- rollc: `x[X]` rolled by the signed count `K` (R189, D16, C6). -/
def execRollc (x : Label) (k : Word) (s : State) : Result :=
  (s.setReg x (roll (s.reg x) k)).advance s.cfg.lenLong

/-- andc: `x[X] <- x[X] & K` (R190). -/
def execAndc (x : Label) (k : Word) (s : State) : Result :=
  (s.setReg x (s.reg x &&& k)).advance s.cfg.lenLong

/-- orc: `x[X] <- x[X] | K` (R191). -/
def execOrc (x : Label) (k : Word) (s : State) : Result :=
  (s.setReg x (s.reg x ||| k)).advance s.cfg.lenLong

/-- notr: `x[X] <- ~x[X]` (R192). -/
def execNotr (x : Label) (s : State) : Result :=
  (s.setReg x (~~~(s.reg x))).advance s.cfg.lenShort

/-- xorc: `x[X] <- x[X] ^ K` (R193). -/
def execXorc (x : Label) (k : Word) (s : State) : Result :=
  (s.setReg x (s.reg x ^^^ k)).advance s.cfg.lenLong

/-- reserved_instruction, reserved encoding, opcode D (R194). -/
def execReservedP3OpD (_x : Label) (s : State) : Result := s.trap .invalidReserved

/-- reserved_instruction, reserved encoding, opcode E (R194). -/
def execReservedP3OpE (_x : Label) (s : State) : Result := s.trap .invalidReserved

end Sys2Proof.Machine
end

