-- ==== Sys2Proof/Machine/ThreeRegister.lean ====
section
/-! DEFINITION. The first instruction page, the 3 register operations (41_three_register.md): one meaning for each row. -/

namespace Sys2Proof.Machine

/-- invalid_instruction, zero trap, opcode 0 (R130). -/
def execInvalidP1 (_x _y _z : Label) (s : State) : Result := s.trap .invalidZero

/-- addr: `x[X] <- wrap32(s32(x[Y]) + s32(x[Z]))`; overflow and underflow from the exact sum (R131, D8). -/
def execAddr (x y z : Label) (s : State) : Result :=
  ((s.setReg x (wrap32 (s32 (s.reg y) + s32 (s.reg z)))).setRanged (s32 (s.reg y) + s32 (s.reg z))).advance s.cfg.lenShort

/-- subr: `x[X] <- wrap32(s32(x[Y]) - s32(x[Z]))`; overflow and underflow from the exact difference (R132, D8). -/
def execSubr (x y z : Label) (s : State) : Result :=
  ((s.setReg x (wrap32 (s32 (s.reg y) - s32 (s.reg z)))).setRanged (s32 (s.reg y) - s32 (s.reg z))).advance s.cfg.lenShort

/-- mulr: `Y:Z <- x[X] * x[Y]` as 64 bits, the high word to Y first, then the low word to Z; no flag (R133, D13). -/
def execMulr (x y z : Label) (s : State) : Result :=
  ((s.setReg y (highWord (product (s.reg x) (s.reg y)))).setReg z (lowWord (product (s.reg x) (s.reg y)))).advance s.cfg.lenShort

/-- divr: `x[X] <- x[Y] / x[Z]` toward zero; zero_div (R134, D10, D11). -/
def execDivr (x y z : Label) (s : State) : Result :=
  ((s.setReg x (quotientOr s.cfg.div0ZeroDividend (s32 (s.reg y)) (s32 (s.reg z)) (tdiv (s32 (s.reg y)) (s32 (s.reg z))))).setDivided (s32 (s.reg z))).advance s.cfg.lenShort

/-- fixmulr: the 16.16 product, rounded down; overflow and underflow from the value before narrowing (R135, D9). -/
def execFixmulr (x y z : Label) (s : State) : Result :=
  ((s.setReg x (wrap32 (fixedProduct (s.reg y) (s.reg z)))).setRanged (fixedProduct (s.reg y) (s.reg z))).advance s.cfg.lenShort

/-- fixdivr: the 16.16 quotient, toward zero; zero_div (R136, D11, D12). -/
def execFixdivr (x y z : Label) (s : State) : Result :=
  ((s.setReg x (quotientOr s.cfg.div0ZeroDividend (s32 (s.reg y)) (s32 (s.reg z)) (tdiv (s32 (s.reg y) * 2 ^ 16) (s32 (s.reg z))))).setDivided (s32 (s.reg z))).advance s.cfg.lenShort

/-- reserved_instruction, reserved encoding, opcode 7 (R137). -/
def execReservedP1Op7 (_x _y _z : Label) (s : State) : Result := s.trap .invalidReserved

/-- reserved_instruction, reserved encoding, opcode 8 (R137). -/
def execReservedP1Op8 (_x _y _z : Label) (s : State) : Result := s.trap .invalidReserved

/-- reserved_instruction, reserved encoding, opcode 9 (R137). -/
def execReservedP1Op9 (_x _y _z : Label) (s : State) : Result := s.trap .invalidReserved

/-- reserved_instruction, reserved encoding, opcode A (R137). -/
def execReservedP1OpA (_x _y _z : Label) (s : State) : Result := s.trap .invalidReserved

/-- reserved_instruction, reserved encoding, opcode B (R137). -/
def execReservedP1OpB (_x _y _z : Label) (s : State) : Result := s.trap .invalidReserved

/-- reserved_instruction, reserved encoding, opcode C (R137). -/
def execReservedP1OpC (_x _y _z : Label) (s : State) : Result := s.trap .invalidReserved

/-- reserved_instruction, reserved encoding, opcode D (R137). -/
def execReservedP1OpD (_x _y _z : Label) (s : State) : Result := s.trap .invalidReserved

/-- reserved_instruction, reserved encoding, opcode E (R137). -/
def execReservedP1OpE (_x _y _z : Label) (s : State) : Result := s.trap .invalidReserved

end Sys2Proof.Machine
end

