-- ==== Sys2Proof/Machine/TwoRegister.lean ====
section
/-! DEFINITION. The second instruction page, the 2 register operations (42_two_register.md): one meaning for each row. -/

namespace Sys2Proof.Machine

/-- invalid_instruction, zero trap, opcode 0 (R150). -/
def execInvalidP2 (_x _y : Label) (s : State) : Result := s.trap .invalidZero

/-- writer: `MemWrite(x[Y], 4, x[X])` (R151, D18). -/
def execWriter (x y : Label) (s : State) : Result :=
  orFault (s.memWrite (s.reg y) (s.reg x)) fun t => t.advance s.cfg.lenShort

/-- readr: `x[X] <- MemRead(x[Y], 4)` (R152, D18). -/
def execReadr (x y : Label) (s : State) : Result :=
  orFault (s.memRead (s.reg y)) fun v => (s.setReg x v).advance s.cfg.lenShort

/-- movr: `x[X] <- x[Y]` (R153). -/
def execMovr (x y : Label) (s : State) : Result :=
  (s.setReg x (s.reg y)).advance s.cfg.lenShort

/-- cmpr: the comparison flags from `s32(x[X]) - s32(x[Y])`; no register is written (R154, D14). -/
def execCmpr (x y : Label) (s : State) : Result :=
  (s.setCompared (s32 (s.reg x) - s32 (s.reg y))).advance s.cfg.lenShort

/-- lshiftr: `x[X]` shifted logically by the signed count `x[Y]` (R155, D15). -/
def execLshiftr (x y : Label) (s : State) : Result :=
  (s.setReg x (logicalShift (s.reg x) (s.reg y))).advance s.cfg.lenShort

/-- ashiftr: `x[X]` shifted arithmetically by the signed count `x[Y]` (R156, D15). -/
def execAshiftr (x y : Label) (s : State) : Result :=
  (s.setReg x (arithmeticShift (s.reg x) (s.reg y))).advance s.cfg.lenShort

/-- rollr: `x[X]` rolled by the signed count `x[Y]` (R157, D16). -/
def execRollr (x y : Label) (s : State) : Result :=
  (s.setReg x (roll (s.reg x) (s.reg y))).advance s.cfg.lenShort

/-- andr: `x[X] <- x[X] & x[Y]` (R158). -/
def execAndr (x y : Label) (s : State) : Result :=
  (s.setReg x (s.reg x &&& s.reg y)).advance s.cfg.lenShort

/-- orr: `x[X] <- x[X] | x[Y]` (R159). -/
def execOrr (x y : Label) (s : State) : Result :=
  (s.setReg x (s.reg x ||| s.reg y)).advance s.cfg.lenShort

/-- xorr: `x[X] <- x[X] ^ x[Y]` (R160). -/
def execXorr (x y : Label) (s : State) : Result :=
  (s.setReg x (s.reg x ^^^ s.reg y)).advance s.cfg.lenShort

/-- reserved_instruction, reserved encoding, opcode B (R161). -/
def execReservedP2OpB (_x _y : Label) (s : State) : Result := s.trap .invalidReserved

/-- reserved_instruction, reserved encoding, opcode C (R161). -/
def execReservedP2OpC (_x _y : Label) (s : State) : Result := s.trap .invalidReserved

/-- reserved_instruction, reserved encoding, opcode D (R161). -/
def execReservedP2OpD (_x _y : Label) (s : State) : Result := s.trap .invalidReserved

/-- reserved_instruction, reserved encoding, opcode E (R161). -/
def execReservedP2OpE (_x _y : Label) (s : State) : Result := s.trap .invalidReserved

end Sys2Proof.Machine
end

