-- ==== Sys2Proof/Machine/ZeroRegister.lean ====
section
/-! DEFINITION. The fourth instruction page, the 0 register operations, and the error encoding `FF FF` (44_zero_register.md): one meaning for each row. -/

namespace Sys2Proof.Machine

/-- invalid_instruction, zero trap, opcode 0 (R210). -/
def execInvalidP4 (s : State) : Result := s.trap .invalidZero

/-- nop: does nothing (R211). -/
def execNop (s : State) : Result :=
  s.advance s.cfg.lenShort

/-- jmp: `pc <- K` (R212). -/
def execJmp (k : Word) (s : State) : Result :=
  s.jump s.cfg.lenLong k

/-- je: jump if equal (R213). -/
def execJe (k : Word) (s : State) : Result :=
  if s.flags.equal then s.jump s.cfg.lenLong k else s.advance s.cfg.lenLong

/-- jg: jump if greater_than (R214). -/
def execJg (k : Word) (s : State) : Result :=
  if s.flags.greaterThan then s.jump s.cfg.lenLong k else s.advance s.cfg.lenLong

/-- jl: jump if less_than (R215). -/
def execJl (k : Word) (s : State) : Result :=
  if s.flags.lessThan then s.jump s.cfg.lenLong k else s.advance s.cfg.lenLong

/-- reserved_instruction, reserved encoding, opcode 6 (R216). -/
def execReservedP4Op6 (s : State) : Result := s.trap .invalidReserved

/-- reserved_instruction, reserved encoding, opcode 7 (R216). -/
def execReservedP4Op7 (s : State) : Result := s.trap .invalidReserved

/-- reserved_instruction, reserved encoding, opcode 8 (R216). -/
def execReservedP4Op8 (s : State) : Result := s.trap .invalidReserved

/-- reserved_instruction, reserved encoding, opcode 9 (R216). -/
def execReservedP4Op9 (s : State) : Result := s.trap .invalidReserved

/-- reserved_instruction, reserved encoding, opcode A (R216). -/
def execReservedP4OpA (s : State) : Result := s.trap .invalidReserved

/-- reserved_instruction, reserved encoding, opcode B (R216). -/
def execReservedP4OpB (s : State) : Result := s.trap .invalidReserved

/-- reserved_instruction, reserved encoding, opcode C (R216). -/
def execReservedP4OpC (s : State) : Result := s.trap .invalidReserved

/-- reserved_instruction, reserved encoding, opcode D (R216). -/
def execReservedP4OpD (s : State) : Result := s.trap .invalidReserved

/-- reserved_instruction, reserved encoding, opcode E (R216). -/
def execReservedP4OpE (s : State) : Result := s.trap .invalidReserved

/-- decoder_error, the error encoding `FF FF` (R217). -/
def execDecoderError (s : State) : Result := s.trap .invalidNextInstrPage

end Sys2Proof.Machine
end

