-- ==== Sys2Proof/Machine/Dispatch.lean ====
section
/-! DEFINITION. The instruction's meaning, one arm for each row of the opcode table (rule R88). -/

namespace Sys2Proof.Machine

def exec (i : Instr) (s : State) : Host.Outcome State Fault Refusal :=
  match i with
  | .invalidP1 x y z => Sys2Proof.Machine.execInvalidP1 x y z s
  | .addr x y z => Sys2Proof.Machine.execAddr x y z s
  | .subr x y z => Sys2Proof.Machine.execSubr x y z s
  | .mulr x y z => Sys2Proof.Machine.execMulr x y z s
  | .divr x y z => Sys2Proof.Machine.execDivr x y z s
  | .fixmulr x y z => Sys2Proof.Machine.execFixmulr x y z s
  | .fixdivr x y z => Sys2Proof.Machine.execFixdivr x y z s
  | .reservedP1Op7 x y z => Sys2Proof.Machine.execReservedP1Op7 x y z s
  | .reservedP1Op8 x y z => Sys2Proof.Machine.execReservedP1Op8 x y z s
  | .reservedP1Op9 x y z => Sys2Proof.Machine.execReservedP1Op9 x y z s
  | .reservedP1OpA x y z => Sys2Proof.Machine.execReservedP1OpA x y z s
  | .reservedP1OpB x y z => Sys2Proof.Machine.execReservedP1OpB x y z s
  | .reservedP1OpC x y z => Sys2Proof.Machine.execReservedP1OpC x y z s
  | .reservedP1OpD x y z => Sys2Proof.Machine.execReservedP1OpD x y z s
  | .reservedP1OpE x y z => Sys2Proof.Machine.execReservedP1OpE x y z s
  | .invalidP2 x y => Sys2Proof.Machine.execInvalidP2 x y s
  | .writer x y => Sys2Proof.Machine.execWriter x y s
  | .readr x y => Sys2Proof.Machine.execReadr x y s
  | .movr x y => Sys2Proof.Machine.execMovr x y s
  | .cmpr x y => Sys2Proof.Machine.execCmpr x y s
  | .lshiftr x y => Sys2Proof.Machine.execLshiftr x y s
  | .ashiftr x y => Sys2Proof.Machine.execAshiftr x y s
  | .rollr x y => Sys2Proof.Machine.execRollr x y s
  | .andr x y => Sys2Proof.Machine.execAndr x y s
  | .orr x y => Sys2Proof.Machine.execOrr x y s
  | .xorr x y => Sys2Proof.Machine.execXorr x y s
  | .reservedP2OpB x y => Sys2Proof.Machine.execReservedP2OpB x y s
  | .reservedP2OpC x y => Sys2Proof.Machine.execReservedP2OpC x y s
  | .reservedP2OpD x y => Sys2Proof.Machine.execReservedP2OpD x y s
  | .reservedP2OpE x y => Sys2Proof.Machine.execReservedP2OpE x y s
  | .invalidP3 x => Sys2Proof.Machine.execInvalidP3 x s
  | .readc x k => Sys2Proof.Machine.execReadc x k s
  | .writec x k => Sys2Proof.Machine.execWritec x k s
  | .movc x k => Sys2Proof.Machine.execMovc x k s
  | .jmpr x => Sys2Proof.Machine.execJmpr x s
  | .cmpc x k => Sys2Proof.Machine.execCmpc x k s
  | .lshiftc x k => Sys2Proof.Machine.execLshiftc x k s
  | .ashiftc x k => Sys2Proof.Machine.execAshiftc x k s
  | .rollc x k => Sys2Proof.Machine.execRollc x k s
  | .andc x k => Sys2Proof.Machine.execAndc x k s
  | .orc x k => Sys2Proof.Machine.execOrc x k s
  | .notr x => Sys2Proof.Machine.execNotr x s
  | .xorc x k => Sys2Proof.Machine.execXorc x k s
  | .reservedP3OpD x => Sys2Proof.Machine.execReservedP3OpD x s
  | .reservedP3OpE x => Sys2Proof.Machine.execReservedP3OpE x s
  | .invalidP4 => Sys2Proof.Machine.execInvalidP4 s
  | .nop => Sys2Proof.Machine.execNop s
  | .jmp k => Sys2Proof.Machine.execJmp k s
  | .je k => Sys2Proof.Machine.execJe k s
  | .jg k => Sys2Proof.Machine.execJg k s
  | .jl k => Sys2Proof.Machine.execJl k s
  | .reservedP4Op6 => Sys2Proof.Machine.execReservedP4Op6 s
  | .reservedP4Op7 => Sys2Proof.Machine.execReservedP4Op7 s
  | .reservedP4Op8 => Sys2Proof.Machine.execReservedP4Op8 s
  | .reservedP4Op9 => Sys2Proof.Machine.execReservedP4Op9 s
  | .reservedP4OpA => Sys2Proof.Machine.execReservedP4OpA s
  | .reservedP4OpB => Sys2Proof.Machine.execReservedP4OpB s
  | .reservedP4OpC => Sys2Proof.Machine.execReservedP4OpC s
  | .reservedP4OpD => Sys2Proof.Machine.execReservedP4OpD s
  | .reservedP4OpE => Sys2Proof.Machine.execReservedP4OpE s
  | .decoderError => Sys2Proof.Machine.execDecoderError s

end Sys2Proof.Machine
end

