-- ==== Sys2Proof/Machine/Fetch.lean ====
section
/-! DEFINITION. Fetching (R111, R112), and placing an instruction where the next step fetches it. -/

namespace Sys2Proof.Machine

/-- Parts 1 and 2 of the cycle (R110): the whole slot at `pc` is read and decoded, and then, for a long instruction
only, the constant at `pc + 4`. A `MemoryFault` of either read ends the fetch (R111, R112, R235). -/
def State.fetch (s : State) : Except Fault Instr :=
  match s.memRead s.pc with
  | .error f => .error f
  | .ok w =>
    if hasConst (slotHead s.cfg.slotLayout w) then
      match s.memRead (s.pc + 4) with
      | .error f => .error f
      | .ok k => .ok (decode (slotHead s.cfg.slotLayout w) k)
    else .ok (decode (slotHead s.cfg.slotLayout w) 0)

/-- The eight addresses from `pc` on (R25). -/
def State.fetchAddrs (s : State) : List Word := (List.range 8).map (fun n => s.pc + BitVec.ofNat 32 n)

/-- The instruction of the opcode table with bits `w`, stored in the slot at `pc` and the four bytes after it, and the
run not ended. -/
def State.placeTableWord (s : State) (nbits w : Nat) : State :=
  { s with mem := s.mem.place (s.fetchAddrs.zip (tableBytes s.cfg.slotLayout nbits w)), ended := none }

end Sys2Proof.Machine
end

