-- ==== Sys2Proof/Machine/Step.lean ====
section
/-! DEFINITION. One step of the machine (R110). -/

namespace Sys2Proof.Machine

/-- One step: a run that has ended takes no further step (R118); else fetch, decode and execute, where `exec` does the
advance, the flags handler and the end of the run. -/
def step (s : State) : Host.Outcome State Fault Refusal :=
  match s.ended with
  | some r => .refused (.runEnded r)
  | none =>
    match s.fetch with
    | .error f => .fault f
    | .ok i => exec i s

/-- The state with an instruction of the opcode table stored where `step` fetches next, in a run that has not ended
(log 11). -/
def State.withFetchWord (s : State) (nbits w : Nat) : State := s.placeTableWord nbits w

end Sys2Proof.Machine
end

