-- ==== Sys2Proof/Safety.lean ====
section
/-! DEFINITION. The terms in which claims speak of a run: what a step answers, what a reachable state keeps, and when
all of memory exists. -/

namespace Sys2Proof.Machine

/-- The next state of an outcome that has one. -/
def nextState? (r : Result) : Option State :=
  match r with
  | .next s => some s
  | .fault _ => none
  | .refused _ => none

/-- The default `MEM`: every address exists (R58). -/
def State.AllMapped (s : State) : Prop := ∀ a : Word, s.mapped a = true

/-- Every address that memory lists is in `MEM`. -/
def State.memInMap (s : State) : Bool := s.mem.all (fun c => s.cfg.inMem c.1)

/-- "The run has ended" agrees with the two trap flags (R118): they are never both 1; a run that has not ended has both
0, unless the machine continues after a trap; and a run that has ended has the flag of its reason 1. -/
def State.endedAgrees (s : State) : Bool :=
  match s.ended with
  | none => !(s.flags.invalidInstruction && s.flags.reservedInstruction) &&
      (s.cfg.continueAfterTrap || (!s.flags.invalidInstruction && !s.flags.reservedInstruction))
  | some .invalidInstruction =>
      s.flags.invalidInstruction && !s.flags.reservedInstruction && !s.cfg.continueAfterTrap
  | some .reservedInstruction =>
      s.flags.reservedInstruction && !s.flags.invalidInstruction && !s.cfg.continueAfterTrap

/-- What holds of every state that a run can reach from a launch: memory is in its canonical form and inside `MEM`, the
reserved FLAGS bits are 0 (R29), and the end of the run agrees with the trap flags (R118). -/
def State.Inv (s : State) : Prop :=
  s.mem.wf ∧ s.memInMap = true ∧ s.flags.reserved = 0 ∧ s.endedAgrees = true

end Sys2Proof.Machine
end

