-- ==== Sys2Proof/Certificates/Slice0/Obligations.lean ====
section
/-! DEFINITION. The statements for the provers, one `def Obligations.<Name> : Prop` each, and the words they are written
in. Every statement about an instruction says that it completes, what it leaves in the registers, flags and memory it
writes, and that nothing else has changed; `pc` is stated once for all instructions that are no jumps
(`PcAdvancesByLength`), since its advance by `LEN_SHORT` or `LEN_LONG`, 4 and 8 at the values taken, is the spec's
decision D2. -/

namespace Sys2Proof.Machine

/-! ## The words of the statements -/

/-- Every byte of memory reads as before. -/
def SameMem (s t : State) : Prop := ∀ a : Word, t.byteAt a = s.byteAt a

/-- Every register but the ones listed is as before. -/
def RegsKept (s t : State) (written : List Label) : Prop := ∀ r : Label, r ∉ written → t.reg r = s.reg r

/-- equal, greater_than and less_than are as before. -/
def CompareFlagsKept (s t : State) : Prop :=
  t.flags.equal = s.flags.equal ∧ t.flags.greaterThan = s.flags.greaterThan ∧ t.flags.lessThan = s.flags.lessThan

/-- overflow and underflow are as before. -/
def RangeFlagsKept (s t : State) : Prop :=
  t.flags.overflow = s.flags.overflow ∧ t.flags.underflow = s.flags.underflow

/-- zero_div is as before. -/
def ZeroDivKept (s t : State) : Prop := t.flags.zeroDiv = s.flags.zeroDiv

/-- The six flags that only the instructions naming them write are as before. -/
def SixFlagsKept (s t : State) : Prop := CompareFlagsKept s t ∧ RangeFlagsKept s t ∧ ZeroDivKept s t

/-- What a defined instruction leaves besides: the two trap flags and the reserved bits 0 (R117), the run going on as
it was, and the parameters untouched. -/
def DefinedEnd (s t : State) : Prop :=
  t.flags.reservedInstruction = false ∧ t.flags.invalidInstruction = false ∧ t.flags.reserved = 0 ∧
    t.ended = s.ended ∧ t.cfg = s.cfg

/-- The frame of a defined instruction that stores nothing and writes the registers listed. -/
def StoresNothing (s t : State) (written : List Label) : Prop :=
  RegsKept s t written ∧ SameMem s t ∧ DefinedEnd s t

/-- All four bytes of the word at `a` are in `MEM`. -/
def WordInMem (s : State) (a : Word) : Prop :=
  s.mapped a = true ∧ s.mapped (a + 1) = true ∧ s.mapped (a + 2) = true ∧ s.mapped (a + 3) = true

/-- `b` is the first byte address of the word at `a` that is not in `MEM` (R11). -/
def FirstOutside (s : State) (a b : Word) : Prop :=
  ∃ n < 4, b = a + BitVec.ofNat 32 n ∧ s.mapped b = false ∧ ∀ m < n, s.mapped (a + BitVec.ofNat 32 m) = true

/-- The 16 instruction bits of an instruction, as a number (R14). -/
def headNat (i : Instr) : Nat := i.head.1.toNat * 256 + i.head.2.toNat

/-- The illegal encodings as values of `H` (R91). -/
def IllegalHead (n : Nat) : Prop :=
  n ≤ 0x0FFF ∨ (0xF000 ≤ n ∧ n ≤ 0xF0FF) ∨ (0xFF00 ≤ n ∧ n ≤ 0xFF0F) ∨ n = 0xFFF0 ∨ n = 0xFFFF

/-- The reserved encodings as values of `H` (R92). -/
def ReservedHead (n : Nat) : Prop :=
  (0x7000 ≤ n ∧ n ≤ 0xEFFF) ∨ (0xFB00 ≤ n ∧ n ≤ 0xFEFF) ∨ (0xFFD0 ≤ n ∧ n ≤ 0xFFEF) ∨ (0xFFF6 ≤ n ∧ n ≤ 0xFFFE)

/-- Page, opcode nibble and register labels of an instruction, as the opcode map gives them (R88). Page 5 is the
error encoding. -/
def opcodeMap : Instr → Nat × Nat × List Nat
  | .invalidP1 x y z => (1, 0, [x.val, y.val, z.val])
  | .addr x y z => (1, 1, [x.val, y.val, z.val])
  | .subr x y z => (1, 2, [x.val, y.val, z.val])
  | .mulr x y z => (1, 3, [x.val, y.val, z.val])
  | .divr x y z => (1, 4, [x.val, y.val, z.val])
  | .fixmulr x y z => (1, 5, [x.val, y.val, z.val])
  | .fixdivr x y z => (1, 6, [x.val, y.val, z.val])
  | .reservedP1Op7 x y z => (1, 7, [x.val, y.val, z.val])
  | .reservedP1Op8 x y z => (1, 8, [x.val, y.val, z.val])
  | .reservedP1Op9 x y z => (1, 9, [x.val, y.val, z.val])
  | .reservedP1OpA x y z => (1, 10, [x.val, y.val, z.val])
  | .reservedP1OpB x y z => (1, 11, [x.val, y.val, z.val])
  | .reservedP1OpC x y z => (1, 12, [x.val, y.val, z.val])
  | .reservedP1OpD x y z => (1, 13, [x.val, y.val, z.val])
  | .reservedP1OpE x y z => (1, 14, [x.val, y.val, z.val])
  | .invalidP2 x y => (2, 0, [x.val, y.val])
  | .writer x y => (2, 1, [x.val, y.val])
  | .readr x y => (2, 2, [x.val, y.val])
  | .movr x y => (2, 3, [x.val, y.val])
  | .cmpr x y => (2, 4, [x.val, y.val])
  | .lshiftr x y => (2, 5, [x.val, y.val])
  | .ashiftr x y => (2, 6, [x.val, y.val])
  | .rollr x y => (2, 7, [x.val, y.val])
  | .andr x y => (2, 8, [x.val, y.val])
  | .orr x y => (2, 9, [x.val, y.val])
  | .xorr x y => (2, 10, [x.val, y.val])
  | .reservedP2OpB x y => (2, 11, [x.val, y.val])
  | .reservedP2OpC x y => (2, 12, [x.val, y.val])
  | .reservedP2OpD x y => (2, 13, [x.val, y.val])
  | .reservedP2OpE x y => (2, 14, [x.val, y.val])
  | .invalidP3 x => (3, 0, [x.val])
  | .readc x _ => (3, 1, [x.val])
  | .writec x _ => (3, 2, [x.val])
  | .movc x _ => (3, 3, [x.val])
  | .jmpr x => (3, 4, [x.val])
  | .cmpc x _ => (3, 5, [x.val])
  | .lshiftc x _ => (3, 6, [x.val])
  | .ashiftc x _ => (3, 7, [x.val])
  | .rollc x _ => (3, 8, [x.val])
  | .andc x _ => (3, 9, [x.val])
  | .orc x _ => (3, 10, [x.val])
  | .notr x => (3, 11, [x.val])
  | .xorc x _ => (3, 12, [x.val])
  | .reservedP3OpD x => (3, 13, [x.val])
  | .reservedP3OpE x => (3, 14, [x.val])
  | .invalidP4 => (4, 0, [])
  | .nop => (4, 1, [])
  | .jmp _ => (4, 2, [])
  | .je _ => (4, 3, [])
  | .jg _ => (4, 4, [])
  | .jl _ => (4, 5, [])
  | .reservedP4Op6 => (4, 6, [])
  | .reservedP4Op7 => (4, 7, [])
  | .reservedP4Op8 => (4, 8, [])
  | .reservedP4Op9 => (4, 9, [])
  | .reservedP4OpA => (4, 10, [])
  | .reservedP4OpB => (4, 11, [])
  | .reservedP4OpC => (4, 12, [])
  | .reservedP4OpD => (4, 13, [])
  | .reservedP4OpE => (4, 14, [])
  | .decoderError => (5, 15, [])

/-- `H = n` is the encoding of the short instruction `i`: it decodes to `i` whatever follows the slot, and no constant
is read (R80, R88). -/
def EncodesShort (n : Nat) (i : Instr) : Prop :=
  (∀ k, decode (BitVec.ofNat 16 n) k = i) ∧ hasConst (BitVec.ofNat 16 n) = false

/-- The registers an instruction writes (R22). -/
def writesTo : Instr → List Label
  | .invalidP1 _ _ _ => []
  | .addr x _ _ => [x]
  | .subr x _ _ => [x]
  | .mulr _ y z => [y, z]
  | .divr x _ _ => [x]
  | .fixmulr x _ _ => [x]
  | .fixdivr x _ _ => [x]
  | .reservedP1Op7 _ _ _ => []
  | .reservedP1Op8 _ _ _ => []
  | .reservedP1Op9 _ _ _ => []
  | .reservedP1OpA _ _ _ => []
  | .reservedP1OpB _ _ _ => []
  | .reservedP1OpC _ _ _ => []
  | .reservedP1OpD _ _ _ => []
  | .reservedP1OpE _ _ _ => []
  | .invalidP2 _ _ => []
  | .writer _ _ => []
  | .readr x _ => [x]
  | .movr x _ => [x]
  | .cmpr _ _ => []
  | .lshiftr x _ => [x]
  | .ashiftr x _ => [x]
  | .rollr x _ => [x]
  | .andr x _ => [x]
  | .orr x _ => [x]
  | .xorr x _ => [x]
  | .reservedP2OpB _ _ => []
  | .reservedP2OpC _ _ => []
  | .reservedP2OpD _ _ => []
  | .reservedP2OpE _ _ => []
  | .invalidP3 _ => []
  | .readc x _ => [x]
  | .writec _ _ => []
  | .movc x _ => [x]
  | .jmpr _ => []
  | .cmpc _ _ => []
  | .lshiftc x _ => [x]
  | .ashiftc x _ => [x]
  | .rollc x _ => [x]
  | .andc x _ => [x]
  | .orc x _ => [x]
  | .notr x => [x]
  | .xorc x _ => [x]
  | .reservedP3OpD _ => []
  | .reservedP3OpE _ => []
  | .invalidP4 => []
  | .nop => []
  | .jmp _ => []
  | .je _ => []
  | .jg _ => []
  | .jl _ => []
  | .reservedP4Op6 => []
  | .reservedP4Op7 => []
  | .reservedP4Op8 => []
  | .reservedP4Op9 => []
  | .reservedP4OpA => []
  | .reservedP4OpB => []
  | .reservedP4OpC => []
  | .reservedP4OpD => []
  | .reservedP4OpE => []
  | .decoderError => []

/-- The five encodings that set invalid_instruction: a zero trap for each page, and `FF FF`. -/
def trapsInvalid (x y z : Label) : List Instr :=
  [.invalidP1 x y z, .invalidP2 x y, .invalidP3 x, .invalidP4, .decoderError]

/-- The 23 reserved encodings. -/
def trapsReserved (x y z : Label) : List Instr :=
  [.reservedP1Op7 x y z, .reservedP1Op8 x y z, .reservedP1Op9 x y z,
   .reservedP1OpA x y z, .reservedP1OpB x y z, .reservedP1OpC x y z,
   .reservedP1OpD x y z, .reservedP1OpE x y z, .reservedP2OpB x y,
   .reservedP2OpC x y, .reservedP2OpD x y, .reservedP2OpE x y,
   .reservedP3OpD x, .reservedP3OpE x, .reservedP4Op6,
   .reservedP4Op7, .reservedP4Op8, .reservedP4Op9,
   .reservedP4OpA, .reservedP4OpB, .reservedP4OpC,
   .reservedP4OpD, .reservedP4OpE]

/-- The instructions that can set `pc` to a target. -/
def IsJump (i : Instr) : Prop :=
  (∃ x, i = .jmpr x) ∨ ∃ k, i = .jmp k ∨ i = .je k ∨ i = .jg k ∨ i = .jl k

/-- A state with the flags that no instruction reads set to a fixed value (R28, R219). -/
def State.unreadFlagsCleared (s : State) : State :=
  { s with
    flags :=
      { s.flags with
        reservedInstruction := false, invalidInstruction := false, zeroDiv := false, overflow := false
        underflow := false, reserved := 0 } }

/-- An outcome seen without those flags. -/
def withoutUnreadFlags (r : Result) : Result :=
  match r with
  | .next t => .next t.unreadFlagsCleared
  | .fault f => .fault f
  | .refused q => .refused q

end Sys2Proof.Machine

open Sys2Proof Sys2Proof.Machine

/-! ## Encoding and decoding -/

/-- Words written out from the spec's encodings decode to their instructions (R88, R99, V-ENC; which bytes of the slot
are the instruction is the spec's decision D1). -/
def Obligations.SpecWordsDecode : Prop :=
  decodeBytes .memoryOrder [0x10, 0x01, 0, 0] = .ok (.addr 0 0 1, []) ∧
  decodeBytes .memoryOrder [0x34, 0x59, 0, 0] = .ok (.mulr 4 5 9, []) ∧
  decodeBytes .memoryOrder [0xF1, 0x01, 0, 0] = .ok (.writer 0 1, []) ∧
  decodeBytes .memoryOrder [0xF4, 0xAB, 0, 0] = .ok (.cmpr 10 11, []) ∧
  decodeBytes .memoryOrder [0xFF, 0x30, 0, 0, 0x44, 0x33, 0x22, 0x11] = .ok (.movc 0 0x11223344, []) ∧
  decodeBytes .wordMsbFirst [0, 0, 0x30, 0xFF, 0x44, 0x33, 0x22, 0x11] = .ok (.movc 0 0x11223344, []) ∧
  decodeBytes .memoryOrder [0xFF, 0xF5, 0, 0, 0x18, 0, 0, 0] = .ok (.jl 0x18, []) ∧
  decodeBytes .memoryOrder [0xFF, 0xF1, 0, 0] = .ok (.nop, []) ∧
  decodeBytes .memoryOrder [0, 0, 0, 0] = .ok (.invalidP1 0 0 0, []) ∧
  decodeBytes .memoryOrder [0xFF, 0xFF, 0xFF, 0xFF] = .ok (.decoderError, [])

/-- Decoding what the encoder emits gives the instruction back, whatever bytes follow, in both slot layouts and with
every label and constant (R86, R99). -/
def Obligations.DecodeOfEncode : Prop :=
  ∀ (l : SlotLayout) (i : Instr) (rest : List Byte), decodeBytes l (encode l i ++ rest) = .ok (i, rest)

/-- No two values of `H` decode to one instruction: the head of the decoded instruction is `H` again, and its constant
is the one that was read, exactly when `H` has one (R86, R94, R99). -/
def Obligations.EncodeOfDecode : Prop :=
  ∀ (h : Half) (k : Word), halfOf (decode h k).head.1 (decode h k).head.2 = h ∧
    (decode h k).const? = if hasConst h then some k else none

/-- The decoder walks the nibbles of `H` from the top and stops at the first that is not `F`; that nibble is the opcode
and the ones below it are the labels X, Y, Z (R86). -/
def Obligations.DecodeWalksTheNibbles : Prop :=
  ∀ (h : Half) (k : Word), opcodeMap (decode h k) =
    if h.toNat / 4096 ≠ 0xF then
      (1, h.toNat / 4096, [h.toNat / 256 % 16, h.toNat / 16 % 16, h.toNat % 16])
    else if h.toNat / 256 % 16 ≠ 0xF then (2, h.toNat / 256 % 16, [h.toNat / 16 % 16, h.toNat % 16])
    else if h.toNat / 16 % 16 ≠ 0xF then (3, h.toNat / 16 % 16, [h.toNat % 16])
    else if h.toNat % 16 ≠ 0xF then (4, h.toNat % 16, [])
    else (5, 0xF, [])

/-- Exactly fourteen opcodes have a constant: ten of page 3 and the four jumps of page 4 (R89, R196; that a trapping
encoding has none is the spec's decision D7). -/
def Obligations.ConstantFollowsExactlyFourteenOpcodes : Prop :=
  ∀ h : Half, hasConst h = true ↔
    (h.toNat / 256 = 0xFF ∧ h.toNat / 16 % 16 ∈ [1, 2, 3, 5, 6, 7, 8, 9, 10, 12]) ∨
      (h.toNat / 16 = 0xFFF ∧ h.toNat % 16 ∈ [2, 3, 4, 5])

/-- The padding bytes do not matter, in either layout (R83). -/
def Obligations.PaddingIsIgnored : Prop :=
  ∀ (b0 b1 p q p' q' : Byte) (rest : List Byte),
    decodeBytes .memoryOrder (b0 :: b1 :: p :: q :: rest) = decodeBytes .memoryOrder (b0 :: b1 :: p' :: q' :: rest) ∧
    decodeBytes .wordMsbFirst (p :: q :: b1 :: b0 :: rest) = decodeBytes .wordMsbFirst (p' :: q' :: b1 :: b0 :: rest)

/-! ## Memory -/

/-- A stored word puts its four bytes at `a` to `a + 3` modulo 2^32, the least significant first, leaves every other
byte, and reads back (R11, R52, R59; the wrap is the spec's decision D19). -/
def Obligations.StoredWordReadsBack : Prop :=
  ∀ (s t : State) (a v : Word), s.memWrite a v = .ok t →
    t.byteAt a = v.extractLsb' 0 8 ∧ t.byteAt (a + 1) = v.extractLsb' 8 8 ∧
    t.byteAt (a + 2) = v.extractLsb' 16 8 ∧ t.byteAt (a + 3) = v.extractLsb' 24 8 ∧
    (∀ b : Word, b ≠ a → b ≠ a + 1 → b ≠ a + 2 → b ≠ a + 3 → t.byteAt b = s.byteAt b) ∧
    t.memRead a = .ok v

/-- A word load one byte above a word store takes the three upper bytes of the stored word and the byte after it
(R52, R54; the width of an access is the spec's decision D18). -/
def Obligations.MisalignedLoadAfterStore : Prop :=
  ∀ (s t : State) (a v w : Word), s.memWrite a v = .ok t → t.memRead (a + 1) = .ok w →
    w.toNat = v.toNat / 2 ^ 8 + 2 ^ 24 * (s.byteAt (a + 4)).toNat

/-- Only writer and writec change memory, and only the four bytes they store to (R57, R64, R162;
decision D18). -/
def Obligations.OnlyStoresChangeMemory : Prop :=
  ∀ (i : Instr) (s t : State) (a : Word), exec i s = .next t → t.byteAt a ≠ s.byteAt a →
    ∃ (x : Label) (p : Word), ((∃ y, i = .writer x y ∧ p = s.reg y) ∨ i = .writec x p) ∧
      (a = p ∨ a = p + 1 ∨ a = p + 2 ∨ a = p + 3)

/-! ## The step -/

/-- When the bytes at `pc` are in `MEM` and decode to an instruction, in a run that has not ended, the step is the
execution of that instruction, and nothing is added around it: `exec` advances `pc`, runs the handler and ends the run
(R110, R111, R112). -/
def Obligations.StepRunsDecodedInstruction : Prop :=
  ∀ (s : State) (bytes rest : List Byte) (i : Instr), s.ended = none →
    (∀ (n : Nat) (b : Byte), bytes[n]? = some b →
      s.mapped (s.pc + BitVec.ofNat 32 n) = true ∧ s.byteAt (s.pc + BitVec.ofNat 32 n) = b) →
    decodeBytes s.cfg.slotLayout bytes = .ok (i, rest) → step s = exec i s

/-- A run that has ended takes no further step (R118, the spec's decision D6; that it is a refusal is log 9). -/
def Obligations.EndedRunTakesNoStep : Prop :=
  ∀ (s : State) (r : StopReason), s.ended = some r → step s = .refused (.runEnded r)

/-- The order of the fetch: a slot byte outside `MEM` faults first; then, for a long instruction only, a constant byte
outside `MEM`; a short instruction runs whatever `MEM` says of the four bytes after its slot (R111, R112, R235; the
fault is the spec's decision D20). -/
def Obligations.FetchFaultsInOrder : Prop :=
  ∀ s : State, s.ended = none →
    (∀ b, FirstOutside s s.pc b → step s = .fault (.memoryFault b)) ∧
    (WordInMem s s.pc → hasConst (slotHead s.cfg.slotLayout (s.wordAt s.pc)) = true →
      ∀ b, FirstOutside s (s.pc + 4) b → step s = .fault (.memoryFault b)) ∧
    (WordInMem s s.pc → hasConst (slotHead s.cfg.slotLayout (s.wordAt s.pc)) = false →
      step s = exec (decode (slotHead s.cfg.slotLayout (s.wordAt s.pc)) 0) s)

/-- A step faults only with a `MemoryFault` at an address outside `MEM` (R58, R234; the fault is the spec's decision
D20). -/
def Obligations.StepFaultsOnlyOutsideMem : Prop :=
  ∀ (s : State) (f : Fault), step s = .fault f → ∃ a, f = .memoryFault a ∧ s.mapped a = false

/-- With the default `MEM`, every step of a run that has not ended has a next state, whatever bytes stand in memory:
the decoder is total, no instruction is refused and no `MemoryFault` can occur (R86, R234). -/
def Obligations.EveryStepCompletesInFullMemory : Prop :=
  ∀ s : State, s.AllMapped → s.ended = none → ∃ t, step s = .next t

/-- Every step keeps the invariant: memory canonical and inside `MEM`, the reserved FLAGS bits 0, and the end of the
run in agreement with the trap flags (R29, R58, R118; decisions D6, D20; the canonical form is the model's own, log
4). -/
def Obligations.StepKeepsInvariant : Prop :=
  ∀ s t : State, s.Inv → step s = .next t → t.Inv

/-- The state after reset has the invariant (R29, R34; decision D21 for the flags that it fixes; no value chosen by the
model is in it but that memory is empty, log 4). -/
def Obligations.ResetHasInvariant : Prop := State.reset.Inv

/-- Every launch whose image lies in `MEM` has the invariant (R34, R262; decision D21; the canonical form of memory in the
invariant is the model's own choice, log 4). -/
def Obligations.LaunchHasInvariant : Prop :=
  ∀ l : Launch, (∀ c ∈ l.image, l.config.inMem c.1.toNat = true) → (State.launch l).Inv

/-- The launch state is what the host gave: its registers, entry point and six flags, with the two trap flags and the
reserved bits 0 and the run not ended; and its memory, each address holding the last byte that the host placed there (R34,
R240, R262; the spec's decision D21). That a byte the host did not place reads as 0 is the model's choice (log 4). -/
def Obligations.LaunchStateIsTheHosts : Prop :=
  ∀ l : Launch,
    (∀ r : Label, (State.launch l).reg r = l.initRegs[r.val]) ∧ (State.launch l).pc = l.entry ∧
    (State.launch l).flags =
      ⟨l.initFlags.equal, l.initFlags.greaterThan, l.initFlags.lessThan, false, false, l.initFlags.zeroDiv,
        l.initFlags.overflow, l.initFlags.underflow, 0⟩ ∧
    (State.launch l).ended = none ∧ (State.launch l).cfg = l.config ∧
    (∀ (before after : List (Word × Byte)) (a : Word) (v : Byte), l.image = before ++ (a, v) :: after →
      (∀ c ∈ after, c.1 ≠ a) → (State.launch l).byteAt a = v) ∧
    ∀ a : Word, (∀ c ∈ l.image, c.1 ≠ a) → (State.launch l).byteAt a = 0

/-- No step changes a parameter: `MEM` and the other readings of R6 are fixed for a run (R6, R18). -/
def Obligations.StepKeepsParameters : Prop := ∀ s t : State, step s = .next t → t.cfg = s.cfg

/-- The end state of a trap stop: when the machine does not continue after traps, a step ends the run exactly when it
set one of the two trap flags; then registers, memory and the other six flags are untouched, exactly one of the two is
1 and `pc` is `LEN_SHORT` past the start of the trapping slot (R118, R236; decisions D6, D7, D28). -/
def Obligations.TrapStopEndState : Prop :=
  ∀ s t : State, s.cfg.continueAfterTrap = false → step s = .next t →
    (t.ended ≠ none ↔ (t.flags.invalidInstruction = true ∨ t.flags.reservedInstruction = true)) ∧
    (t.ended ≠ none →
      (∀ r, t.reg r = s.reg r) ∧ SameMem s t ∧ SixFlagsKept s t ∧ t.pc = s.pc + s.cfg.lenShort ∧
      t.flags.invalidInstruction = !t.flags.reservedInstruction)

/-- Under `CONTINUE_AFTER_TRAP` no step ends the run (R118, R237; the parameter of decision D6). -/
def Obligations.ContinuingMachineNeverEnds : Prop :=
  ∀ s t : State, s.cfg.continueAfterTrap = true → step s = .next t → t.ended = none

/-- What writer or writec stores where the next step fetches is what the next step runs (R65, R151, R182; decision D26).
Stored into the slot at `pc`, the word is the instruction, and if it is long its constant is the word after the slot, as it
was before the store; where that is not in `MEM` the step faults at its first such address. Stored into the constant of a
long instruction at `pc`, the word is its constant. -/
def Obligations.StoreIsSeenByTheNextFetch : Prop :=
  ∀ (s t : State) (x : Label) (p : Word) (i : Instr),
    ((∃ y, i = .writer x y ∧ p = s.reg y) ∨ i = .writec x p) → exec i s = .next t → t.ended = none →
    (p = t.pc → hasConst (slotHead s.cfg.slotLayout (s.reg x)) = false →
      step t = exec (decode (slotHead s.cfg.slotLayout (s.reg x)) 0) t) ∧
    (p = t.pc → hasConst (slotHead s.cfg.slotLayout (s.reg x)) = true → WordInMem s (t.pc + 4) →
      step t = exec (decode (slotHead s.cfg.slotLayout (s.reg x)) (s.wordAt (t.pc + 4))) t) ∧
    (p = t.pc → hasConst (slotHead s.cfg.slotLayout (s.reg x)) = true →
      ∀ b, FirstOutside s (t.pc + 4) b → step t = .fault (.memoryFault b)) ∧
    (p = t.pc + 4 → WordInMem s t.pc → hasConst (slotHead s.cfg.slotLayout (s.wordAt t.pc)) = true →
      step t = exec (decode (slotHead s.cfg.slotLayout (s.wordAt t.pc)) (s.reg x)) t)

/-! ## Whole-machine rules -/

/-- The flags register handler: after every instruction, reserved_instruction is 1 exactly if it was a reserved
encoding, invalid_instruction exactly if it was a zero trap or `FF FF`, and the reserved bits are 0 (R117). -/
def Obligations.HandlerRunsAfterEveryInstruction : Prop :=
  ∀ (i : Instr) (s t : State), exec i s = .next t →
    (t.flags.reservedInstruction = true ↔ ReservedHead (headNat i)) ∧
    (t.flags.invalidInstruction = true ↔ IllegalHead (headNat i)) ∧ t.flags.reserved = 0

/-- The reserved FLAGS bits are 0 after every step, whatever they were before, and at every launch (R29; the
launch is the spec's decision D21). -/
def Obligations.ReservedFlagBitsAreZero : Prop :=
  (∀ s t : State, step s = .next t → t.flags.reserved = 0) ∧ ∀ l : Launch, (State.launch l).flags.reserved = 0

/-- Which instructions write which registers (R22). -/
def Obligations.RegistersChangeOnlyWhereWritten : Prop :=
  ∀ (i : Instr) (s t : State), exec i s = .next t → RegsKept s t (writesTo i)

/-- Which instructions write which flags (R28, R119; decision D5). -/
def Obligations.FlagsChangeOnlyWhereNamed : Prop :=
  ∀ (i : Instr) (s t : State), exec i s = .next t →
    ((¬ ∃ x y, i = .cmpr x y) → (¬ ∃ x k, i = .cmpc x k) → CompareFlagsKept s t) ∧
    ((¬ ∃ x y z, i = .addr x y z ∨ i = .subr x y z ∨ i = .fixmulr x y z) → RangeFlagsKept s t) ∧
    ((¬ ∃ x y z, i = .divr x y z ∨ i = .fixdivr x y z) → ZeroDivKept s t)

/-- An instruction that is no jump advances `pc` by `LEN_LONG` if it has a constant and by `LEN_SHORT` if not, modulo
2^32; so do the trapping encodings, which have none. At the values 4 and 8 that R6 takes, that is the number of bytes it
occupies (R25, R80, R114, R116; decisions D2, D7, D23). -/
def Obligations.PcAdvancesByLength : Prop :=
  ∀ (i : Instr) (s t : State), exec i s = .next t → ¬ IsJump i →
    t.pc.toNat =
      (s.pc.toNat + (if (i.const?).isSome then s.cfg.lenLong.toNat else s.cfg.lenShort.toNat)) % 2 ^ 32 ∧
    (s.cfg.lenShort = 4 → s.cfg.lenLong = 8 → t.pc.toNat = (s.pc.toNat + i.lengthBytes) % 2 ^ 32)

/-- overflow and underflow are never both 1 after an instruction that found them not both 1, and never both 1 after
addr, subr and fixmulr (R121, R131, R132, R135, R235; decisions D8, D9). -/
def Obligations.OverflowAndUnderflowExclude : Prop :=
  ∀ (i : Instr) (s t : State), exec i s = .next t →
    ((s.flags.overflow && s.flags.underflow) = false → (t.flags.overflow && t.flags.underflow) = false) ∧
    ((∃ x y z, i = .addr x y z ∨ i = .subr x y z ∨ i = .fixmulr x y z) →
      (t.flags.overflow && t.flags.underflow) = false)

/-- No instruction reads zero_div, overflow, underflow, the trap flags or the reserved bits: two states that differ in
these alone step alike, and the outcomes differ in these alone (R28, R30, R219, R233). -/
def Obligations.UnreadFlagsDoNotInterfere : Prop :=
  ∀ s u : State, s.unreadFlagsCleared = u.unreadFlagsCleared →
    withoutUnreadFlags (step s) = withoutUnreadFlags (step u)

/-- A conditional jump after cmpr or cmpc follows the signed order of the two compared numbers, also where their
difference leaves the 32-bit range; a jump not taken advances by `LEN_LONG`, and a taken one adds it under
`JUMP_ADDS_LEN` (R154, R186, R213, R214, R215; decisions D2, D3, D14). -/
def Obligations.CompareThenJumpFollowsSignedOrder : Prop :=
  ∀ (s t : State) (x : Label) (v k : Word) (i : Instr),
    ((∃ y, i = .cmpr x y ∧ v = s.reg y) ∨ i = .cmpc x v) → exec i s = .next t →
    (∃ u, exec (.je k) t = .next u ∧
      u.pc = if (s.reg x).toInt = v.toInt then (if s.cfg.jumpAddsLen then k + s.cfg.lenLong else k)
        else t.pc + s.cfg.lenLong) ∧
    (∃ u, exec (.jg k) t = .next u ∧
      u.pc = if v.toInt < (s.reg x).toInt then (if s.cfg.jumpAddsLen then k + s.cfg.lenLong else k)
        else t.pc + s.cfg.lenLong) ∧
    (∃ u, exec (.jl k) t = .next u ∧
      u.pc = if (s.reg x).toInt < v.toInt then (if s.cfg.jumpAddsLen then k + s.cfg.lenLong else k)
        else t.pc + s.cfg.lenLong)

/-- The constant forms do what the register forms do with `K` in the place of `x[Y]`; only the length differs
(R195). -/
def Obligations.ConstantFormsAgreeWithRegisterForms : Prop :=
  ∀ (s : State) (x y : Label),
    ∀ p ∈ [(Instr.cmpc x (s.reg y), Instr.cmpr x y), (.lshiftc x (s.reg y), .lshiftr x y),
        (.ashiftc x (s.reg y), .ashiftr x y), (.rollc x (s.reg y), .rollr x y), (.andc x (s.reg y), .andr x y),
        (.orc x (s.reg y), .orr x y), (.xorc x (s.reg y), .xorr x y)],
      ∃ t u, exec p.1 s = .next t ∧ exec p.2 s = .next u ∧ { t with pc := u.pc } = u

/-- Rolling by a constant and then by its negation gives the register back, for every constant (R157, R189;
decision D16). -/
def Obligations.RollBackRestores : Prop :=
  ∀ (s t u : State) (x : Label) (k : Word), exec (.rollc x k) s = .next t → exec (.rollc x (-k)) t = .next u →
    ∀ r, u.reg r = s.reg r

/-- The FLAGS word as the host sees it: under `msb0` source bit `k` is bit `31 - k`, under `lsb0` bit `k`
(R27, decision D4). -/
def Obligations.FlagsWordLayout : Prop :=
  ∀ (f : Flags) (b : Nat), b < 32 →
    ((f.word .msb0).getLsbD b =
      ([f.equal, f.greaterThan, f.lessThan, f.reservedInstruction, f.invalidInstruction, f.zeroDiv, f.overflow,
        f.underflow][31 - b]?).getD (f.reserved.getLsbD b)) ∧
    (f.word .lsb0).getLsbD b = (f.word .msb0).getLsbD (31 - b)

/-! ## The first page -/

/-- addr stores the low 32 bits of the exact signed sum and writes overflow and underflow from it (R131; what the two
flags mean and the wrapped result are the spec's decision D8). -/
def Obligations.AddrAddsSigned : Prop :=
  ∀ (s : State) (x y z : Label), ∃ t, exec (.addr x y z) s = .next t ∧
    t.reg x = s.reg y + s.reg z ∧
    (t.flags.overflow = true ↔ 2 ^ 31 - 1 < (s.reg y).toInt + (s.reg z).toInt) ∧
    (t.flags.underflow = true ↔ (s.reg y).toInt + (s.reg z).toInt < -2 ^ 31) ∧
    StoresNothing s t [x] ∧ CompareFlagsKept s t ∧ ZeroDivKept s t

/-- subr stores the low 32 bits of the exact signed difference and writes overflow and underflow from it (R132;
decision D8). -/
def Obligations.SubrSubtractsSigned : Prop :=
  ∀ (s : State) (x y z : Label), ∃ t, exec (.subr x y z) s = .next t ∧
    t.reg x = s.reg y - s.reg z ∧
    (t.flags.overflow = true ↔ 2 ^ 31 - 1 < (s.reg y).toInt - (s.reg z).toInt) ∧
    (t.flags.underflow = true ↔ (s.reg y).toInt - (s.reg z).toInt < -2 ^ 31) ∧
    StoresNothing s t [x] ∧ CompareFlagsKept s t ∧ ZeroDivKept s t

/-- mulr leaves the whole 64-bit signed product of X and Y in the pair Y:Z; where Y and Z are one register, it holds
the low word (R133; which half goes where and the order of the writes are the spec's decision D13). -/
def Obligations.MulrLeavesTheWholeProduct : Prop :=
  ∀ (s : State) (x y z : Label), ∃ t, exec (.mulr x y z) s = .next t ∧
    t.reg z = s.reg x * s.reg y ∧
    (y ≠ z → (t.reg y ++ t.reg z).toInt = (s.reg x).toInt * (s.reg y).toInt) ∧
    StoresNothing s t [y, z] ∧ SixFlagsKept s t

/-- divr divides toward zero and keeps the low 32 bits; a zero divisor gives the largest or smallest signed number by
the sign of the dividend, and for `0 / 0` the parameter `DIV0_ZERO_DIVIDEND`, whatever it is; zero_div tells a zero
divisor (R12, R134; decisions D10, D11). -/
def Obligations.DivrDividesTowardZero : Prop :=
  ∀ (s : State) (x y z : Label), ∃ t, exec (.divr x y z) s = .next t ∧
    t.reg x =
      (if (s.reg z).toInt ≠ 0 then
        BitVec.ofInt 32 ((s.reg y).toInt.sign * (s.reg z).toInt.sign *
          ((s.reg y).toInt.natAbs / (s.reg z).toInt.natAbs : Nat))
      else if 0 < (s.reg y).toInt then 0x7FFFFFFF
      else if (s.reg y).toInt < 0 then 0x80000000
      else s.cfg.div0ZeroDividend) ∧
    (t.flags.zeroDiv = true ↔ (s.reg z).toInt = 0) ∧
    StoresNothing s t [x] ∧ CompareFlagsKept s t ∧ RangeFlagsKept s t

/-- fixmulr stores the low 32 bits of the 16.16 product rounded down and writes overflow and underflow from the value
before narrowing (R135, decision D9). -/
def Obligations.FixmulrRoundsDown : Prop :=
  ∀ (s : State) (x y z : Label), ∃ (t : State) (e : Int), exec (.fixmulr x y z) s = .next t ∧
    e * 2 ^ 16 ≤ (s.reg y).toInt * (s.reg z).toInt ∧ (s.reg y).toInt * (s.reg z).toInt < (e + 1) * 2 ^ 16 ∧
    t.reg x = BitVec.ofInt 32 e ∧
    (t.flags.overflow = true ↔ 2 ^ 31 - 1 < e) ∧ (t.flags.underflow = true ↔ e < -2 ^ 31) ∧
    StoresNothing s t [x] ∧ CompareFlagsKept s t ∧ ZeroDivKept s t

/-- fixdivr divides `a * 2^16` by `b` toward zero and keeps the low 32 bits; a zero divisor as in divr; overflow and
underflow are not written (R12, R136; decisions D11, D12). -/
def Obligations.FixdivrDividesTowardZero : Prop :=
  ∀ (s : State) (x y z : Label), ∃ t, exec (.fixdivr x y z) s = .next t ∧
    t.reg x =
      (if (s.reg z).toInt ≠ 0 then
        BitVec.ofInt 32 ((s.reg y).toInt.sign * (s.reg z).toInt.sign *
          ((s.reg y).toInt.natAbs * 2 ^ 16 / (s.reg z).toInt.natAbs : Nat))
      else if 0 < (s.reg y).toInt then 0x7FFFFFFF
      else if (s.reg y).toInt < 0 then 0x80000000
      else s.cfg.div0ZeroDividend) ∧
    (t.flags.zeroDiv = true ↔ (s.reg z).toInt = 0) ∧
    StoresNothing s t [x] ∧ CompareFlagsKept s t ∧ RangeFlagsKept s t

/-! ## The second and third pages -/

/-- writer and writec store the four bytes of `x[X]`, least significant first, at `x[Y]` and at `K`, when those four
addresses are in `MEM`, and change no other byte, no register and none of the six flags (R151, R182; decisions D18,
D19). -/
def Obligations.StoresWriteOneWord : Prop :=
  ∀ (s : State) (x : Label) (p : Word), WordInMem s p →
    ∀ i, ((∃ y, i = Instr.writer x y ∧ p = s.reg y) ∨ i = .writec x p) →
    ∃ t, exec i s = .next t ∧
      t.byteAt p = (s.reg x).extractLsb' 0 8 ∧ t.byteAt (p + 1) = (s.reg x).extractLsb' 8 8 ∧
      t.byteAt (p + 2) = (s.reg x).extractLsb' 16 8 ∧ t.byteAt (p + 3) = (s.reg x).extractLsb' 24 8 ∧
      (∀ b : Word, b ≠ p → b ≠ p + 1 → b ≠ p + 2 → b ≠ p + 3 → t.byteAt b = s.byteAt b) ∧
      RegsKept s t [] ∧ SixFlagsKept s t ∧ DefinedEnd s t

/-- readr loads the little-endian word at `x[Y]`, of any alignment, when its four addresses are in `MEM` (R152;
decisions D18, D19). -/
def Obligations.ReadrLoadsOneWord : Prop :=
  ∀ (s : State) (x y : Label), WordInMem s (s.reg y) → ∃ t, exec (.readr x y) s = .next t ∧
    (t.reg x).toNat = (s.byteAt (s.reg y)).toNat + 2 ^ 8 * (s.byteAt (s.reg y + 1)).toNat +
      2 ^ 16 * (s.byteAt (s.reg y + 2)).toNat + 2 ^ 24 * (s.byteAt (s.reg y + 3)).toNat ∧
    StoresNothing s t [x] ∧ SixFlagsKept s t

/-- A data access that touches an address outside `MEM` is a `MemoryFault` at the first such address, for writer, readr
and writec, and for readc where it loads (R11, R58, R151, R152, R182; the fault is the spec's decision D20, and readc as a
load is the other value of the parameter of decision D17). -/
def Obligations.DataAccessFaultsAtFirstOutside : Prop :=
  ∀ (s : State) (x y : Label) (k b : Word),
    (FirstOutside s (s.reg y) b →
      exec (.writer x y) s = .fault (.memoryFault b) ∧ exec (.readr x y) s = .fault (.memoryFault b)) ∧
    (FirstOutside s k b → exec (.writec x k) s = .fault (.memoryFault b)) ∧
    (s.cfg.readcIsLoad = true → FirstOutside s k b → exec (.readc x k) s = .fault (.memoryFault b))

/-- readc copies its constant; under `READC_IS_LOAD` it loads the word at it (R181, R184; decision D17). -/
def Obligations.ReadcCopiesOrLoads : Prop :=
  ∀ (s : State) (x : Label) (k : Word), (s.cfg.readcIsLoad = true → WordInMem s k) →
    ∃ t, exec (.readc x k) s = .next t ∧
      t.reg x = (if s.cfg.readcIsLoad then s.wordAt k else k) ∧
      StoresNothing s t [x] ∧ SixFlagsKept s t

/-- movr, encoded `F3 XY`, copies Y to X, and nothing else changes but `pc` and what the handler writes (R153). -/
def Obligations.MovrCopiesRegister : Prop :=
  ∀ (s : State) (x y : Label), EncodesShort (0xF300 + 16 * x.val + y.val) (.movr x y) ∧
    ∃ t, exec (.movr x y) s = .next t ∧
    t.reg x = s.reg y ∧ StoresNothing s t [x] ∧ SixFlagsKept s t

/-- andr, orr and xorr, encoded `F8 XY`, `F9 XY` and `FA XY`, combine X and Y bit by bit into X (R158, R159, R160). -/
def Obligations.RegisterLogicIsBitwise : Prop :=
  ∀ (s : State) (x y : Label),
    (EncodesShort (0xF800 + 16 * x.val + y.val) (.andr x y) ∧ ∃ t, exec (.andr x y) s = .next t ∧
      (∀ b : Nat, (t.reg x).getLsbD b = ((s.reg x).getLsbD b && (s.reg y).getLsbD b)) ∧
      StoresNothing s t [x] ∧ SixFlagsKept s t) ∧
    (EncodesShort (0xF900 + 16 * x.val + y.val) (.orr x y) ∧ ∃ t, exec (.orr x y) s = .next t ∧
      (∀ b : Nat, (t.reg x).getLsbD b = ((s.reg x).getLsbD b || (s.reg y).getLsbD b)) ∧
      StoresNothing s t [x] ∧ SixFlagsKept s t) ∧
    (EncodesShort (0xFA00 + 16 * x.val + y.val) (.xorr x y) ∧ ∃ t, exec (.xorr x y) s = .next t ∧
      (∀ b : Nat, (t.reg x).getLsbD b = ((s.reg x).getLsbD b ^^ (s.reg y).getLsbD b)) ∧
      StoresNothing s t [x] ∧ SixFlagsKept s t)

/-- movc copies its constant to X, andc, orc and xorc combine X and the constant bit by bit, and `pc` advances by
`LEN_LONG` (R183, R190, R191, R193; decision D2 for the length). -/
def Obligations.ConstantMovesAndLogic : Prop :=
  ∀ (s : State) (x : Label) (k : Word),
    (∃ t, exec (.movc x k) s = .next t ∧ t.reg x = k ∧
      t.pc = s.pc + s.cfg.lenLong ∧ StoresNothing s t [x] ∧ SixFlagsKept s t) ∧
    (∃ t, exec (.andc x k) s = .next t ∧
      (∀ b : Nat, (t.reg x).getLsbD b = ((s.reg x).getLsbD b && k.getLsbD b)) ∧
      t.pc = s.pc + s.cfg.lenLong ∧ StoresNothing s t [x] ∧ SixFlagsKept s t) ∧
    (∃ t, exec (.orc x k) s = .next t ∧
      (∀ b : Nat, (t.reg x).getLsbD b = ((s.reg x).getLsbD b || k.getLsbD b)) ∧
      t.pc = s.pc + s.cfg.lenLong ∧ StoresNothing s t [x] ∧ SixFlagsKept s t) ∧
    (∃ t, exec (.xorc x k) s = .next t ∧
      (∀ b : Nat, (t.reg x).getLsbD b = ((s.reg x).getLsbD b ^^ k.getLsbD b)) ∧
      t.pc = s.pc + s.cfg.lenLong ∧ StoresNothing s t [x] ∧ SixFlagsKept s t)

/-- notr complements every bit of X (R192). -/
def Obligations.NotrComplements : Prop :=
  ∀ (s : State) (x : Label), ∃ t, exec (.notr x) s = .next t ∧
    (∀ b : Nat, b < 32 → (t.reg x).getLsbD b = !(s.reg x).getLsbD b) ∧
    t.pc = s.pc + s.cfg.lenShort ∧ StoresNothing s t [x] ∧ SixFlagsKept s t

/-- cmpr and cmpc write the three comparison flags from the signed order of X and the other operand, and no register
(R154, R186; the exact difference and the operand order of cmpc are the spec's decision D14). -/
def Obligations.CompareTellsSignedOrder : Prop :=
  ∀ (s : State) (x : Label) (v : Word) (i : Instr),
    ((∃ y, i = .cmpr x y ∧ v = s.reg y) ∨ i = .cmpc x v) →
    ∃ t, exec i s = .next t ∧
      (t.flags.equal = true ↔ (s.reg x).toInt = v.toInt) ∧
      (t.flags.greaterThan = true ↔ v.toInt < (s.reg x).toInt) ∧
      (t.flags.lessThan = true ↔ (s.reg x).toInt < v.toInt) ∧
      StoresNothing s t [] ∧ RangeFlagsKept s t ∧ ZeroDivKept s t

/-- lshiftr and lshiftc: with the count `c` read as a signed number, left by `c` if it is positive, else right by
`-c`, zeros entering; the count is not reduced (R155, R187; decision D15). -/
def Obligations.LogicalShiftBySignedCount : Prop :=
  ∀ (s : State) (x : Label) (v : Word) (i : Instr),
    ((∃ y, i = .lshiftr x y ∧ v = s.reg y) ∨ i = .lshiftc x v) →
    ∃ t, exec i s = .next t ∧
      (0 < v.toInt → (t.reg x).toNat = (s.reg x).toNat * 2 ^ v.toInt.natAbs % 2 ^ 32) ∧
      (v.toInt ≤ 0 → (t.reg x).toNat = (s.reg x).toNat / 2 ^ v.toInt.natAbs) ∧
      StoresNothing s t [x] ∧ SixFlagsKept s t

/-- ashiftr and ashiftc: with the count `c` read as a signed number, `s32(X) * 2^c` narrowed if it is positive, else
the floor of `s32(X) / 2^(-c)`; the count is not reduced (R156, R188; decision D15). -/
def Obligations.ArithmeticShiftBySignedCount : Prop :=
  ∀ (s : State) (x : Label) (v : Word) (i : Instr),
    ((∃ y, i = .ashiftr x y ∧ v = s.reg y) ∨ i = .ashiftc x v) →
    ∃ t, exec i s = .next t ∧
      (0 < v.toInt → t.reg x = BitVec.ofInt 32 ((s.reg x).toInt * 2 ^ v.toInt.natAbs)) ∧
      (v.toInt ≤ 0 → (t.reg x).toInt = (s.reg x).toInt / 2 ^ v.toInt.natAbs) ∧
      StoresNothing s t [x] ∧ SixFlagsKept s t

/-- rollr and rollc: bit `b` goes to bit `b + c` modulo 32, with the count `c` read as a signed number, so that a
positive count rolls left and a negative one right (R157, R189; decision D16). -/
def Obligations.RollMovesEveryBit : Prop :=
  ∀ (s : State) (x : Label) (v : Word) (i : Instr),
    ((∃ y, i = .rollr x y ∧ v = s.reg y) ∨ i = .rollc x v) →
    ∃ t, exec i s = .next t ∧
      (∀ b : Nat, b < 32 → (t.reg x).getLsbD ((((b : Int) + v.toInt) % 32).toNat) = (s.reg x).getLsbD b) ∧
      StoresNothing s t [x] ∧ SixFlagsKept s t

/-! ## Control transfer, nop and the trapping encodings -/

/-- jmp and jmpr set `pc` to the target exactly, and to the target plus their length under `JUMP_ADDS_LEN`; nothing
else changes (R185, R212; decision D3). -/
def Obligations.UnconditionalJumps : Prop :=
  ∀ (s : State) (x : Label) (k : Word),
    (∃ t, exec (.jmp k) s = .next t ∧ t.pc = (if s.cfg.jumpAddsLen then k + s.cfg.lenLong else k) ∧
      StoresNothing s t [] ∧ SixFlagsKept s t) ∧
    (∃ t, exec (.jmpr x) s = .next t ∧ t.pc = (if s.cfg.jumpAddsLen then s.reg x + s.cfg.lenShort else s.reg x) ∧
      StoresNothing s t [] ∧ SixFlagsKept s t)

/-- je, jg and jl jump when equal, greater_than and less_than is 1, and else advance by `LEN_LONG`; no flag and no register
is written (R213, R214, R215; decisions D2, D3). -/
def Obligations.ConditionalJumpsTestOneFlag : Prop :=
  ∀ (s : State) (k : Word),
    ∀ p ∈ [(Instr.je k, s.flags.equal), (.jg k, s.flags.greaterThan), (.jl k, s.flags.lessThan)],
      ∃ t, exec p.1 s = .next t ∧
        t.pc = (if p.2 then (if s.cfg.jumpAddsLen then k + s.cfg.lenLong else k) else s.pc + s.cfg.lenLong) ∧
        StoresNothing s t [] ∧ SixFlagsKept s t

/-- nop advances `pc` by `LEN_SHORT` and changes nothing else but what the handler writes (R211; decision D2). -/
def Obligations.NopOnlyAdvances : Prop :=
  ∀ s : State, ∃ t, exec .nop s = .next t ∧ t.pc = s.pc + s.cfg.lenShort ∧
    StoresNothing s t [] ∧ SixFlagsKept s t

/-- The four zero traps and `FF FF` set invalid_instruction, clear reserved_instruction, advance `pc` by `LEN_SHORT`
and end the run, unless the machine continues after traps; they change nothing else (R116 to R118, R130, R150, R180,
R210, R217; decisions D6, D7). That a machine which continues after traps leaves "the run has ended" as it was, in every
state, is the model's inference (log 28). -/
def Obligations.InvalidInstructionsTrap : Prop :=
  ∀ (s : State) (x y z : Label), ∀ i ∈ trapsInvalid x y z, ∃ t, exec i s = .next t ∧
    t.flags.invalidInstruction = true ∧ t.flags.reservedInstruction = false ∧ t.flags.reserved = 0 ∧
    t.pc = s.pc + s.cfg.lenShort ∧
    t.ended = (if s.cfg.continueAfterTrap then s.ended else some .invalidInstruction) ∧
    RegsKept s t [] ∧ SameMem s t ∧ SixFlagsKept s t ∧ t.cfg = s.cfg

/-- The 23 reserved opcodes set reserved_instruction, clear invalid_instruction, advance `pc` by `LEN_SHORT` and end the
run, unless the machine continues after traps; they change nothing else (R116 to R118, R137, R161, R194, R216; decisions
D6, D7). That a machine which continues after traps leaves "the run has ended" as it was, in every state, is the model's
inference (log 28). -/
def Obligations.ReservedInstructionsTrap : Prop :=
  ∀ (s : State) (x y z : Label), ∀ i ∈ trapsReserved x y z, ∃ t, exec i s = .next t ∧
    t.flags.reservedInstruction = true ∧ t.flags.invalidInstruction = false ∧ t.flags.reserved = 0 ∧
    t.pc = s.pc + s.cfg.lenShort ∧
    t.ended = (if s.cfg.continueAfterTrap then s.ended else some .reservedInstruction) ∧
    RegsKept s t [] ∧ SameMem s t ∧ SixFlagsKept s t ∧ t.cfg = s.cfg

/-! ## The parameters taken -/

/-- The machine after reset has the parameter values that R6 takes: the layout `memory_order`, lengths 4 and 8, jumps that
add no length, `msb0`, a run that ends at a trap, `0x7FFFFFFF` for `0 / 0`, readc as a copy, and every address in `MEM` (R6;
decisions D1, D2, D3, D4, D6, D11, D17, D20). -/
def Obligations.ResetTakesTheSpecsParameters : Prop :=
  State.reset.cfg.slotLayout = .memoryOrder ∧ State.reset.cfg.lenShort = 4 ∧ State.reset.cfg.lenLong = 8 ∧
  State.reset.cfg.jumpAddsLen = false ∧ State.reset.cfg.flagsBitOrder = .msb0 ∧
  State.reset.cfg.continueAfterTrap = false ∧ State.reset.cfg.div0ZeroDividend = 0x7FFFFFFF ∧
  State.reset.cfg.readcIsLoad = false ∧ State.reset.AllMapped
end

