-- ==== Sys2Proof/Laws/Memory.lean ====
section
/-! SUPPORT. Memory as data: what a read sees after a write, that every operation keeps the canonical form, and that
two canonical memories with the same bytes are the same list. The first two laws hold for every list. -/

namespace Sys2Proof.Machine

theorem Memory.read_filter_self (m : Memory) (a : Nat) :
    Memory.read (m.filter (fun c => c.1 != a)) a = Memory.unplaced := by
  induction m with
  | nil => rfl
  | cons c m ih =>
    by_cases h : c.1 = a <;> simp_all [Memory.read]

theorem Memory.read_filter_ne (m : Memory) {a b : Nat} (h : b ≠ a) :
    Memory.read (m.filter (fun c => c.1 != a)) b = Memory.read m b := by
  induction m with
  | nil => rfl
  | cons c m ih =>
    by_cases hc : c.1 = a
    · have : c.1 ≠ b := fun e => h (e ▸ hc)
      simp_all [Memory.read]
    · simp [Memory.read, hc, ih]

theorem Memory.read_insertCell_ne (m : Memory) {a b : Nat} (v : Byte) (h : b ≠ a) :
    Memory.read (Memory.insertCell a v m) b = Memory.read m b := by
  induction m with
  | nil => simp [Memory.insertCell, Memory.read, Ne.symm h]
  | cons c m ih =>
    by_cases hc : a < c.1
    · simp [Memory.insertCell, Memory.read, hc, Ne.symm h]
    · simp [Memory.insertCell, Memory.read, hc, ih]

theorem Memory.read_insertCell_self (m : Memory) (a : Nat) (v : Byte) (h : ∀ c ∈ m, c.1 ≠ a) :
    Memory.read (Memory.insertCell a v m) a = v := by
  induction m with
  | nil => simp [Memory.insertCell, Memory.read]
  | cons c m ih =>
    by_cases hc : a < c.1
    · simp [Memory.insertCell, Memory.read, hc]
    · simp [Memory.insertCell, Memory.read, hc, h c List.mem_cons_self,
        ih (fun d hd => h d (List.mem_cons_of_mem _ hd))]

/-- A byte reads as it was written. -/
@[simp] theorem Memory.read_write_self (m : Memory) (a : Nat) (v : Byte) : (m.write a v).read a = v := by
  unfold Memory.write
  split
  · next h => rw [h]; exact Memory.read_filter_self m a
  · exact Memory.read_insertCell_self _ a v (by simp)

/-- A write leaves every other byte alone. -/
theorem Memory.read_write_ne (m : Memory) {a b : Nat} (v : Byte) (h : b ≠ a) :
    (m.write a v).read b = m.read b := by
  unfold Memory.write
  split
  · exact Memory.read_filter_ne m h
  · rw [Memory.read_insertCell_ne _ v h, Memory.read_filter_ne m h]

/-- Bytes placed elsewhere leave a byte alone. -/
theorem Memory.read_place_of_notMem (m : Memory) (image : List (Word × Byte)) {a : Nat}
    (h : ∀ c ∈ image, c.1.toNat ≠ a) : (m.place image).read a = m.read a := by
  induction image generalizing m with
  | nil => rfl
  | cons c image ih =>
    rw [Memory.place, List.foldl_cons, ← Memory.place, ih _ (fun d hd => h d (List.mem_cons_of_mem _ hd)),
      Memory.read_write_ne _ _ (Ne.symm (h c List.mem_cons_self))]

/-- Of the bytes placed at one address the last stays. -/
theorem Memory.read_place_last (m : Memory) (before after : List (Word × Byte)) {a : Word} (v : Byte)
    (h : ∀ c ∈ after, c.1 ≠ a) : (m.place (before ++ (a, v) :: after)).read a.toNat = v := by
  unfold Memory.place
  rw [List.foldl_append, List.foldl_cons]
  exact (Memory.read_place_of_notMem _ after (fun c hc e => h c hc (BitVec.eq_of_toNat_eq e))).trans
    (Memory.read_write_self _ _ _)

/-! ### The canonical form -/

theorem Memory.mem_insertCell {m : Memory} {a : Nat} {v : Byte} {c : Host.Cell} :
    c ∈ Memory.insertCell a v m ↔ c = (a, v) ∨ c ∈ m := by
  induction m with
  | nil => simp [Memory.insertCell]
  | cons d m ih =>
    by_cases h : a < d.1 <;> simp [Memory.insertCell, h, ih, or_left_comm]

theorem Memory.pairwise_insertCell {m : Memory} {a : Nat} {v : Byte}
    (hm : m.Pairwise (fun c d => c.1 < d.1)) (ha : ∀ c ∈ m, c.1 ≠ a) :
    (Memory.insertCell a v m).Pairwise (fun c d => c.1 < d.1) := by
  induction m with
  | nil => simp [Memory.insertCell]
  | cons d m ih =>
    have hd := List.pairwise_cons.1 hm
    by_cases h : a < d.1
    · simp only [Memory.insertCell, h, if_true]
      refine List.pairwise_cons.2 ⟨?_, hm⟩
      intro c hc
      rcases List.mem_cons.1 hc with rfl | hc
      · exact h
      · exact Nat.lt_trans h (hd.1 c hc)
    · simp only [Memory.insertCell, h, if_false]
      refine List.pairwise_cons.2 ⟨?_, ih hd.2 (fun c hc => ha c (List.mem_cons_of_mem _ hc))⟩
      intro c hc
      rcases Memory.mem_insertCell.1 hc with rfl | hc
      · have := ha d List.mem_cons_self
        show d.1 < a
        omega
      · exact hd.1 c hc

theorem Memory.wf_nil : Memory.wf [] := by decide

/-- What a write leaves in the list: cells that were there, and the one written. -/
theorem Memory.mem_write {m : Memory} {a : Nat} {v : Byte} {c : Host.Cell} (h : c ∈ m.write a v) :
    c ∈ m ∨ c = (a, v) := by
  unfold Memory.write at h
  split at h
  · exact .inl (List.mem_of_mem_filter h)
  · rcases Memory.mem_insertCell.1 h with h | h
    · exact .inr h
    · exact .inl (List.mem_of_mem_filter h)

/-- A write keeps the canonical form. -/
theorem Memory.wf_write {m : Memory} (hm : m.wf) {a : Nat} (ha : a < 2 ^ 32) (v : Byte) : (m.write a v).wf := by
  have hf : (m.filter (fun c => c.1 != a)).Pairwise (fun c d => c.1 < d.1) := hm.1.filter _
  unfold Memory.write
  split
  · exact ⟨hf, fun c hc => hm.2 c (List.mem_of_mem_filter hc)⟩
  · next h =>
    refine ⟨Memory.pairwise_insertCell hf (by simp), fun c hc => ?_⟩
    rcases Memory.mem_insertCell.1 hc with rfl | hc
    · exact ⟨h, ha⟩
    · exact hm.2 c (List.mem_of_mem_filter hc)

/-- Placing bytes keeps the canonical form. -/
theorem Memory.wf_place {m : Memory} (hm : m.wf) (image : List (Word × Byte)) : (m.place image).wf := by
  induction image generalizing m with
  | nil => exact hm
  | cons c image ih => exact ih (Memory.wf_write hm c.1.isLt c.2)

/-- What placing bytes leaves in the list: cells that were there, and those placed. -/
theorem Memory.mem_place {m : Memory} {image : List (Word × Byte)} {c : Host.Cell} (h : c ∈ m.place image) :
    c ∈ m ∨ ∃ d ∈ image, c = (d.1.toNat, d.2) := by
  induction image generalizing m with
  | nil => exact .inl h
  | cons d image ih =>
    rcases ih h with h | ⟨e, he, rfl⟩
    · rcases Memory.mem_write h with h | h
      · exact .inl h
      · exact .inr ⟨d, List.mem_cons_self, h⟩
    · exact .inr ⟨e, List.mem_cons_of_mem _ he, rfl⟩

theorem Memory.read_of_forall_lt {m : Memory} {a : Nat} (h : ∀ c ∈ m, a < c.1) : m.read a = Memory.unplaced := by
  induction m with
  | nil => rfl
  | cons c m ih =>
    have := h c List.mem_cons_self
    simp [Memory.read, show c.1 ≠ a by omega, ih (fun d hd => h d (List.mem_cons_of_mem _ hd))]

/-- Equal bytes are equal data: two canonical memories that read the same everywhere are the same list. -/
theorem Memory.eq_of_read_eq {m n : Memory} (hm : m.wf) (hn : n.wf) (h : ∀ a, m.read a = n.read a) : m = n := by
  induction m generalizing n with
  | nil =>
    cases n with
    | nil => rfl
    | cons d n =>
      have := h d.1
      simp [Memory.read] at this
      exact absurd this.symm (hn.2 d List.mem_cons_self).1
  | cons c m ih =>
    have hc := List.pairwise_cons.1 hm.1
    cases n with
    | nil =>
      have := h c.1
      simp [Memory.read] at this
      exact absurd this (hm.2 c List.mem_cons_self).1
    | cons d n =>
      have hd := List.pairwise_cons.1 hn.1
      have key : c.1 = d.1 := by
        rcases Nat.lt_trichotomy c.1 d.1 with hlt | heq | hgt
        · have h1 := h c.1
          rw [Memory.read_of_forall_lt (m := d :: n)] at h1
          · simp [Memory.read] at h1
            exact absurd h1 (hm.2 c List.mem_cons_self).1
          · intro e he
            rcases List.mem_cons.1 he with rfl | he
            · exact hlt
            · exact Nat.lt_trans hlt (hd.1 e he)
        · exact heq
        · have h1 := h d.1
          rw [Memory.read_of_forall_lt (m := c :: m)] at h1
          · simp [Memory.read] at h1
            exact absurd h1.symm (hn.2 d List.mem_cons_self).1
          · intro e he
            rcases List.mem_cons.1 he with rfl | he
            · exact hgt
            · exact Nat.lt_trans hgt (hc.1 e he)
      have hv : c.2 = d.2 := by
        have := h c.1
        simpa [Memory.read, key] using this
      have : m = n := by
        refine ih ⟨hc.2, fun e he => hm.2 e (List.mem_cons_of_mem _ he)⟩
          ⟨hd.2, fun e he => hn.2 e (List.mem_cons_of_mem _ he)⟩ (fun a => ?_)
        by_cases ha : c.1 = a
        · rw [Memory.read_of_forall_lt (fun e he => ha ▸ hc.1 e he),
            Memory.read_of_forall_lt (fun e he => (key.symm.trans ha) ▸ hd.1 e he)]
        · have := h a
          simpa [Memory.read, ha, show d.1 ≠ a from key ▸ ha] using this
      rw [this, Prod.ext key hv]

end Sys2Proof.Machine
end

