-- ==== Sys2Proof/Laws/State.lean ====
section
/-! SUPPORT. One lemma for each field of the state, and each flag, under each update of Machine/Ops.lean and
Machine/Flags.lean; all hold by computation, so that no later proof unfolds a record update. -/

namespace Sys2Proof.Machine

variable (s : State)

/-! ### setReg -/

@[simp] theorem setReg_regs (r : Label) (v : Word) : (s.setReg r v).regs = s.regs.set r.val v := rfl
@[simp] theorem setReg_pc (r : Label) (v : Word) : (s.setReg r v).pc = s.pc := rfl
@[simp] theorem setReg_flags (r : Label) (v : Word) : (s.setReg r v).flags = s.flags := rfl
@[simp] theorem setReg_mem (r : Label) (v : Word) : (s.setReg r v).mem = s.mem := rfl
@[simp] theorem setReg_ended (r : Label) (v : Word) : (s.setReg r v).ended = s.ended := rfl
@[simp] theorem setReg_cfg (r : Label) (v : Word) : (s.setReg r v).cfg = s.cfg := rfl
@[simp] theorem setReg_byteAt (r : Label) (v : Word) (c : Word) : (s.setReg r v).byteAt c = s.byteAt c := rfl
@[simp] theorem setReg_wordAt (r : Label) (v : Word) (c : Word) : (s.setReg r v).wordAt c = s.wordAt c := rfl
@[simp] theorem setReg_memRead (r : Label) (v : Word) (c : Word) : (s.setReg r v).memRead c = s.memRead c := rfl
@[simp] theorem setReg_mapped (r : Label) (v : Word) (c : Word) : (s.setReg r v).mapped c = s.mapped c := rfl
@[simp] theorem setReg_firstUnmapped (r : Label) (v : Word) (c : Word) :
    (s.setReg r v).firstUnmapped c = s.firstUnmapped c := rfl

/-! ### setCompared -/

@[simp] theorem setCompared_regs (d : Int) : (s.setCompared d).regs = s.regs := rfl
@[simp] theorem setCompared_pc (d : Int) : (s.setCompared d).pc = s.pc := rfl
@[simp] theorem setCompared_flags (d : Int) : (s.setCompared d).flags = s.flags.compared d := rfl
@[simp] theorem setCompared_mem (d : Int) : (s.setCompared d).mem = s.mem := rfl
@[simp] theorem setCompared_ended (d : Int) : (s.setCompared d).ended = s.ended := rfl
@[simp] theorem setCompared_cfg (d : Int) : (s.setCompared d).cfg = s.cfg := rfl
@[simp] theorem setCompared_reg (d : Int) (q : Label) : (s.setCompared d).reg q = s.reg q := rfl
@[simp] theorem setCompared_byteAt (d : Int) (c : Word) : (s.setCompared d).byteAt c = s.byteAt c := rfl
@[simp] theorem setCompared_wordAt (d : Int) (c : Word) : (s.setCompared d).wordAt c = s.wordAt c := rfl
@[simp] theorem setCompared_memRead (d : Int) (c : Word) : (s.setCompared d).memRead c = s.memRead c := rfl
@[simp] theorem setCompared_mapped (d : Int) (c : Word) : (s.setCompared d).mapped c = s.mapped c := rfl
@[simp] theorem setCompared_firstUnmapped (d : Int) (c : Word) :
    (s.setCompared d).firstUnmapped c = s.firstUnmapped c := rfl

/-! ### setRanged -/

@[simp] theorem setRanged_regs (e : Int) : (s.setRanged e).regs = s.regs := rfl
@[simp] theorem setRanged_pc (e : Int) : (s.setRanged e).pc = s.pc := rfl
@[simp] theorem setRanged_flags (e : Int) : (s.setRanged e).flags = s.flags.ranged e := rfl
@[simp] theorem setRanged_mem (e : Int) : (s.setRanged e).mem = s.mem := rfl
@[simp] theorem setRanged_ended (e : Int) : (s.setRanged e).ended = s.ended := rfl
@[simp] theorem setRanged_cfg (e : Int) : (s.setRanged e).cfg = s.cfg := rfl
@[simp] theorem setRanged_reg (e : Int) (q : Label) : (s.setRanged e).reg q = s.reg q := rfl
@[simp] theorem setRanged_byteAt (e : Int) (c : Word) : (s.setRanged e).byteAt c = s.byteAt c := rfl
@[simp] theorem setRanged_wordAt (e : Int) (c : Word) : (s.setRanged e).wordAt c = s.wordAt c := rfl
@[simp] theorem setRanged_memRead (e : Int) (c : Word) : (s.setRanged e).memRead c = s.memRead c := rfl
@[simp] theorem setRanged_mapped (e : Int) (c : Word) : (s.setRanged e).mapped c = s.mapped c := rfl
@[simp] theorem setRanged_firstUnmapped (e : Int) (c : Word) :
    (s.setRanged e).firstUnmapped c = s.firstUnmapped c := rfl

/-! ### setDivided -/

@[simp] theorem setDivided_regs (b : Int) : (s.setDivided b).regs = s.regs := rfl
@[simp] theorem setDivided_pc (b : Int) : (s.setDivided b).pc = s.pc := rfl
@[simp] theorem setDivided_flags (b : Int) : (s.setDivided b).flags = s.flags.divided b := rfl
@[simp] theorem setDivided_mem (b : Int) : (s.setDivided b).mem = s.mem := rfl
@[simp] theorem setDivided_ended (b : Int) : (s.setDivided b).ended = s.ended := rfl
@[simp] theorem setDivided_cfg (b : Int) : (s.setDivided b).cfg = s.cfg := rfl
@[simp] theorem setDivided_reg (b : Int) (q : Label) : (s.setDivided b).reg q = s.reg q := rfl
@[simp] theorem setDivided_byteAt (b : Int) (c : Word) : (s.setDivided b).byteAt c = s.byteAt c := rfl
@[simp] theorem setDivided_wordAt (b : Int) (c : Word) : (s.setDivided b).wordAt c = s.wordAt c := rfl
@[simp] theorem setDivided_memRead (b : Int) (c : Word) : (s.setDivided b).memRead c = s.memRead c := rfl
@[simp] theorem setDivided_mapped (b : Int) (c : Word) : (s.setDivided b).mapped c = s.mapped c := rfl
@[simp] theorem setDivided_firstUnmapped (b : Int) (c : Word) :
    (s.setDivided b).firstUnmapped c = s.firstUnmapped c := rfl

/-! ### putWord -/

@[simp] theorem putWord_regs (a v : Word) : (s.putWord a v).regs = s.regs := rfl
@[simp] theorem putWord_pc (a v : Word) : (s.putWord a v).pc = s.pc := rfl
@[simp] theorem putWord_flags (a v : Word) : (s.putWord a v).flags = s.flags := rfl
@[simp] theorem putWord_mem (a v : Word) : (s.putWord a v).mem = s.mem.place ((wordAddrs a).zip (bytesOf v)) := rfl
@[simp] theorem putWord_ended (a v : Word) : (s.putWord a v).ended = s.ended := rfl
@[simp] theorem putWord_cfg (a v : Word) : (s.putWord a v).cfg = s.cfg := rfl
@[simp] theorem putWord_reg (a v : Word) (q : Label) : (s.putWord a v).reg q = s.reg q := rfl
@[simp] theorem putWord_mapped (a v : Word) (c : Word) : (s.putWord a v).mapped c = s.mapped c := rfl
@[simp] theorem putWord_firstUnmapped (a v : Word) (c : Word) :
    (s.putWord a v).firstUnmapped c = s.firstUnmapped c := rfl

/-! ### conclude -/

@[simp] theorem conclude_regs (v : Verdict) (t : Word) : (s.conclude v t).regs = s.regs := rfl
@[simp] theorem conclude_pc (v : Verdict) (t : Word) : (s.conclude v t).pc = t := rfl
@[simp] theorem conclude_flags (v : Verdict) (t : Word) : (s.conclude v t).flags = s.flags.handled v := rfl
@[simp] theorem conclude_mem (v : Verdict) (t : Word) : (s.conclude v t).mem = s.mem := rfl
@[simp] theorem conclude_ended (v : Verdict) (t : Word) : (s.conclude v t).ended = s.endedAfter v := rfl
@[simp] theorem conclude_cfg (v : Verdict) (t : Word) : (s.conclude v t).cfg = s.cfg := rfl
@[simp] theorem conclude_reg (v : Verdict) (t : Word) (q : Label) : (s.conclude v t).reg q = s.reg q := rfl
@[simp] theorem conclude_byteAt (v : Verdict) (t : Word) (c : Word) : (s.conclude v t).byteAt c = s.byteAt c := rfl
@[simp] theorem conclude_wordAt (v : Verdict) (t : Word) (c : Word) : (s.conclude v t).wordAt c = s.wordAt c := rfl
@[simp] theorem conclude_memRead (v : Verdict) (t : Word) (c : Word) : (s.conclude v t).memRead c = s.memRead c := rfl
@[simp] theorem conclude_mapped (v : Verdict) (t : Word) (c : Word) : (s.conclude v t).mapped c = s.mapped c := rfl
@[simp] theorem conclude_firstUnmapped (v : Verdict) (t : Word) (c : Word) :
    (s.conclude v t).firstUnmapped c = s.firstUnmapped c := rfl

variable (f : Flags)

/-! ### compared -/

@[simp] theorem compared_equal (d : Int) : (f.compared d).equal = decide (d = 0) := rfl
@[simp] theorem compared_greaterThan (d : Int) : (f.compared d).greaterThan = decide (0 < d) := rfl
@[simp] theorem compared_lessThan (d : Int) : (f.compared d).lessThan = decide (d < 0) := rfl
@[simp] theorem compared_reservedInstruction (d : Int) :
    (f.compared d).reservedInstruction = f.reservedInstruction := rfl
@[simp] theorem compared_invalidInstruction (d : Int) :
    (f.compared d).invalidInstruction = f.invalidInstruction := rfl
@[simp] theorem compared_zeroDiv (d : Int) : (f.compared d).zeroDiv = f.zeroDiv := rfl
@[simp] theorem compared_overflow (d : Int) : (f.compared d).overflow = f.overflow := rfl
@[simp] theorem compared_underflow (d : Int) : (f.compared d).underflow = f.underflow := rfl
@[simp] theorem compared_reserved (d : Int) : (f.compared d).reserved = f.reserved := rfl

/-! ### ranged -/

@[simp] theorem ranged_equal (e : Int) : (f.ranged e).equal = f.equal := rfl
@[simp] theorem ranged_greaterThan (e : Int) : (f.ranged e).greaterThan = f.greaterThan := rfl
@[simp] theorem ranged_lessThan (e : Int) : (f.ranged e).lessThan = f.lessThan := rfl
@[simp] theorem ranged_reservedInstruction (e : Int) : (f.ranged e).reservedInstruction = f.reservedInstruction := rfl
@[simp] theorem ranged_invalidInstruction (e : Int) : (f.ranged e).invalidInstruction = f.invalidInstruction := rfl
@[simp] theorem ranged_zeroDiv (e : Int) : (f.ranged e).zeroDiv = f.zeroDiv := rfl
@[simp] theorem ranged_overflow (e : Int) : (f.ranged e).overflow = decide (2 ^ 31 - 1 < e) := rfl
@[simp] theorem ranged_underflow (e : Int) : (f.ranged e).underflow = decide (e < -2 ^ 31) := rfl
@[simp] theorem ranged_reserved (e : Int) : (f.ranged e).reserved = f.reserved := rfl

/-! ### divided -/

@[simp] theorem divided_equal (b : Int) : (f.divided b).equal = f.equal := rfl
@[simp] theorem divided_greaterThan (b : Int) : (f.divided b).greaterThan = f.greaterThan := rfl
@[simp] theorem divided_lessThan (b : Int) : (f.divided b).lessThan = f.lessThan := rfl
@[simp] theorem divided_reservedInstruction (b : Int) :
    (f.divided b).reservedInstruction = f.reservedInstruction := rfl
@[simp] theorem divided_invalidInstruction (b : Int) : (f.divided b).invalidInstruction = f.invalidInstruction := rfl
@[simp] theorem divided_zeroDiv (b : Int) : (f.divided b).zeroDiv = decide (b = 0) := rfl
@[simp] theorem divided_overflow (b : Int) : (f.divided b).overflow = f.overflow := rfl
@[simp] theorem divided_underflow (b : Int) : (f.divided b).underflow = f.underflow := rfl
@[simp] theorem divided_reserved (b : Int) : (f.divided b).reserved = f.reserved := rfl

/-! ### handled -/

@[simp] theorem handled_equal (v : Verdict) : (f.handled v).equal = f.equal := rfl
@[simp] theorem handled_greaterThan (v : Verdict) : (f.handled v).greaterThan = f.greaterThan := rfl
@[simp] theorem handled_lessThan (v : Verdict) : (f.handled v).lessThan = f.lessThan := rfl
@[simp] theorem handled_reservedInstruction (v : Verdict) :
    (f.handled v).reservedInstruction = decide (v = .invalidReserved) := rfl
@[simp] theorem handled_invalidInstruction (v : Verdict) :
    (f.handled v).invalidInstruction = (decide (v = .invalidZero) || decide (v = .invalidNextInstrPage)) := rfl
@[simp] theorem handled_zeroDiv (v : Verdict) : (f.handled v).zeroDiv = f.zeroDiv := rfl
@[simp] theorem handled_overflow (v : Verdict) : (f.handled v).overflow = f.overflow := rfl
@[simp] theorem handled_underflow (v : Verdict) : (f.handled v).underflow = f.underflow := rfl
@[simp] theorem handled_reserved (v : Verdict) : (f.handled v).reserved = 0 := rfl

end Sys2Proof.Machine
end

