-- ==== Sys2Proof/Laws/Ops.lean ====
section
/-! SUPPORT. One lemma for each shared operation that says once what it can do; later proofs cite these and unfold
nothing. -/

namespace Sys2Proof

/-! ### Bytes and words -/

/-- The bytes of a word make the word again (R52). -/
@[simp] theorem wordOf_byteOf (v : Word) : wordOf (byteOf v 0) (byteOf v 1) (byteOf v 2) (byteOf v 3) = v := by
  apply BitVec.eq_of_getLsbD_eq
  intro i hi
  simp only [wordOf, byteOf, BitVec.getLsbD_append, BitVec.getLsbD_extractLsb']
  by_cases h0 : i < 8
  · simp [h0]
  · by_cases h1 : i < 16
    · simp [h0, show i - 8 < 8 by omega, show 8 + (i - 8) = i by omega]
    · by_cases h2 : i < 24
      · simp [h0, show ¬ i - 8 < 8 by omega, show i - 8 - 8 < 8 by omega, show 16 + (i - 8 - 8) = i by omega]
      · simp [h0, show ¬ i - 8 < 8 by omega, show ¬ i - 8 - 8 < 8 by omega, show i - 8 - 8 - 8 < 8 by omega,
          show 24 + (i - 8 - 8 - 8) = i by omega]

/-- Bit `i` of a word made of four bytes (R11). -/
theorem getLsbD_wordOf (b0 b1 b2 b3 : Byte) (i : Nat) :
    (wordOf b0 b1 b2 b3).getLsbD i =
      if i < 8 then b0.getLsbD i
      else if i < 16 then b1.getLsbD (i - 8)
      else if i < 24 then b2.getLsbD (i - 16)
      else b3.getLsbD (i - 24) := by
  simp only [wordOf, BitVec.getLsbD_append]
  by_cases h0 : i < 8
  · simp [h0]
  · by_cases h1 : i < 16
    · simp [h0, h1, show i - 8 < 8 by omega]
    · by_cases h2 : i < 24
      · simp [h0, h1, h2, show ¬ i - 8 < 8 by omega, show i - 8 - 8 = i - 16 by omega, show i - 16 < 8 by omega]
      · simp [h0, h1, h2, show ¬ i - 8 < 8 by omega, show i - 8 - 8 = i - 16 by omega,
          show ¬ i - 16 < 8 by omega, show i - 16 - 8 = i - 24 by omega]

/-- Bit `i` of byte `n` of a word (R11). -/
theorem getLsbD_byteOf (v : Word) (n i : Nat) : (byteOf v n).getLsbD i = (decide (i < 8) && v.getLsbD (8 * n + i)) := by
  simp only [byteOf, BitVec.getLsbD_extractLsb']

@[simp] theorem byteOf_wordOf_zero (b0 b1 b2 b3 : Byte) : byteOf (wordOf b0 b1 b2 b3) 0 = b0 := by
  apply BitVec.eq_of_getLsbD_eq
  intro i hi
  simp only [getLsbD_byteOf, getLsbD_wordOf, hi, decide_true, Bool.true_and]
  rw [if_pos (by omega), show 8 * 0 + i = i by omega]

@[simp] theorem byteOf_wordOf_one (b0 b1 b2 b3 : Byte) : byteOf (wordOf b0 b1 b2 b3) 1 = b1 := by
  apply BitVec.eq_of_getLsbD_eq
  intro i hi
  simp only [getLsbD_byteOf, getLsbD_wordOf, hi, decide_true, Bool.true_and]
  rw [if_neg (by omega), if_pos (by omega), show 8 * 1 + i - 8 = i by omega]

@[simp] theorem byteOf_wordOf_two (b0 b1 b2 b3 : Byte) : byteOf (wordOf b0 b1 b2 b3) 2 = b2 := by
  apply BitVec.eq_of_getLsbD_eq
  intro i hi
  simp only [getLsbD_byteOf, getLsbD_wordOf, hi, decide_true, Bool.true_and]
  rw [if_neg (by omega), if_neg (by omega), if_pos (by omega), show 8 * 2 + i - 16 = i by omega]

@[simp] theorem byteOf_wordOf_three (b0 b1 b2 b3 : Byte) : byteOf (wordOf b0 b1 b2 b3) 3 = b3 := by
  apply BitVec.eq_of_getLsbD_eq
  intro i hi
  simp only [getLsbD_byteOf, getLsbD_wordOf, hi, decide_true, Bool.true_and]
  rw [if_neg (by omega), if_neg (by omega), if_neg (by omega), show 8 * 3 + i - 24 = i by omega]

/-- The instruction bits of a word in the layout of R81. -/
@[simp] theorem slotHead_memoryOrder (b0 b1 b2 b3 : Byte) :
    slotHead .memoryOrder (wordOf b0 b1 b2 b3) = halfOf b0 b1 := by
  simp [slotHead]

/-- The instruction bits of a word in the layout of R82. -/
@[simp] theorem slotHead_wordMsbFirst (b0 b1 b2 b3 : Byte) :
    slotHead .wordMsbFirst (wordOf b0 b1 b2 b3) = halfOf b3 b2 := by
  simp [slotHead]

namespace Machine

variable (s : State)

/-! ### Registers -/

@[simp] theorem reg_setReg_self (r : Label) (v : Word) : (s.setReg r v).reg r = v := by
  simp [State.reg, State.setReg]

theorem reg_setReg_ne {r q : Label} (v : Word) (h : q ≠ r) : (s.setReg r v).reg q = s.reg q := by
  have : r.val ≠ q.val := fun e => h (Fin.ext e.symm)
  simp [State.reg, State.setReg, Vector.getElem_set_ne, this]

/-- A register after a register write. -/
theorem reg_setReg (r q : Label) (v : Word) : (s.setReg r v).reg q = if q = r then v else s.reg q := by
  split
  · next h => rw [h, reg_setReg_self]
  · next h => exact reg_setReg_ne s v h

/-! ### Memory -/

/-- All four bytes of a word are in `MEM` exactly when no address of it is the first outside. -/
theorem firstUnmapped_eq_none_iff (a : Word) :
    s.firstUnmapped a = none ↔ ∀ b ∈ wordAddrs a, s.mapped b = true := by
  simp [State.firstUnmapped]

/-- The address that a `MemoryFault` names is a byte of the word and outside `MEM` (R11). -/
theorem firstUnmapped_eq_some {a b : Word} (h : s.firstUnmapped a = some b) :
    b ∈ wordAddrs a ∧ s.mapped b = false := by
  unfold State.firstUnmapped at h
  exact ⟨List.mem_of_find?_eq_some h, by simpa using List.find?_some h⟩

/-- A read answers the word at `a` when all of it is in `MEM`. -/
theorem memRead_ok_iff {a v : Word} : s.memRead a = .ok v ↔ s.firstUnmapped a = none ∧ v = s.wordAt a := by
  unfold State.memRead
  cases s.firstUnmapped a <;> simp [eq_comm]

/-- A read that faults names the first address outside `MEM`. -/
theorem memRead_error_iff {a : Word} {f : Fault} :
    s.memRead a = .error f ↔ ∃ b, s.firstUnmapped a = some b ∧ f = .memoryFault b := by
  unfold State.memRead
  cases s.firstUnmapped a <;> simp [eq_comm]

/-- A write answers the state with the word stored when all of it is in `MEM`. -/
theorem memWrite_ok_iff {a v : Word} {t : State} :
    s.memWrite a v = .ok t ↔ s.firstUnmapped a = none ∧ t = s.putWord a v := by
  unfold State.memWrite
  cases s.firstUnmapped a <;> simp [eq_comm]

/-- A write that faults names the first address outside `MEM`. -/
theorem memWrite_error_iff {a v : Word} {f : Fault} :
    s.memWrite a v = .error f ↔ ∃ b, s.firstUnmapped a = some b ∧ f = .memoryFault b := by
  unfold State.memWrite
  cases s.firstUnmapped a <;> simp [eq_comm]

/-- A stored word leaves every byte outside its four addresses alone. -/
theorem byteAt_putWord_of_notMem {a v b : Word} (h : b ∉ wordAddrs a) :
    (s.putWord a v).byteAt b = s.byteAt b := by
  unfold State.byteAt
  rw [putWord_mem]
  refine Memory.read_place_of_notMem _ _ ?_
  intro c hc e
  exact h (BitVec.eq_of_toNat_eq e ▸ (List.of_mem_zip hc).1)

theorem addr_ne_add {a k : Word} (hk : k ≠ 0) : a.toNat ≠ (a + k).toNat := by
  intro e
  have : a = a + k := BitVec.eq_of_toNat_eq e
  exact hk (by simpa using this.symm)

theorem add_ne_add {a j k : Word} (h : j ≠ k) : (a + j).toNat ≠ (a + k).toNat := by
  intro e
  exact h ((BitVec.add_right_inj a).1 (BitVec.eq_of_toNat_eq e))

/-- The four bytes of a stored word, the least significant at the lowest address (R52). -/
theorem byteAt_putWord (a v : Word) :
    (s.putWord a v).byteAt a = byteOf v 0 ∧ (s.putWord a v).byteAt (a + 1) = byteOf v 1 ∧
      (s.putWord a v).byteAt (a + 2) = byteOf v 2 ∧ (s.putWord a v).byteAt (a + 3) = byteOf v 3 := by
  simp only [State.byteAt, putWord_mem, wordAddrs, bytesOf, List.zip_cons_cons, List.zip_nil_right, Memory.place,
    List.foldl_cons, List.foldl_nil]
  refine ⟨?_, ?_, ?_, ?_⟩
  · rw [Memory.read_write_ne _ _ (addr_ne_add (by decide)), Memory.read_write_ne _ _ (addr_ne_add (by decide)),
      Memory.read_write_ne _ _ (addr_ne_add (by decide)), Memory.read_write_self]
  · rw [Memory.read_write_ne _ _ (add_ne_add (by decide)), Memory.read_write_ne _ _ (add_ne_add (by decide)),
      Memory.read_write_self]
  · rw [Memory.read_write_ne _ _ (add_ne_add (by decide)), Memory.read_write_self]
  · rw [Memory.read_write_self]

/-- A stored word reads back. -/
@[simp] theorem wordAt_putWord (a v : Word) : (s.putWord a v).wordAt a = v := by
  obtain ⟨h0, h1, h2, h3⟩ := byteAt_putWord s a v
  rw [State.wordAt, h0, h1, h2, h3, wordOf_byteOf]

/-- A stored word leaves every word that shares no byte with it alone. -/
theorem wordAt_putWord_of_disjoint {a v b : Word} (h : ∀ c ∈ wordAddrs b, c ∉ wordAddrs a) :
    (s.putWord a v).wordAt b = s.wordAt b := by
  unfold State.wordAt
  rw [byteAt_putWord_of_notMem s (h b (by simp [wordAddrs])),
    byteAt_putWord_of_notMem s (h (b + 1) (by simp [wordAddrs])),
    byteAt_putWord_of_notMem s (h (b + 2) (by simp [wordAddrs])),
    byteAt_putWord_of_notMem s (h (b + 3) (by simp [wordAddrs]))]

/-- A store keeps the canonical form of memory. -/
theorem wf_putWord (h : s.mem.wf) (a v : Word) : (s.putWord a v).mem.wf := Memory.wf_place h _

/-- A store that answers keeps memory inside `MEM`. -/
theorem memInMap_memWrite {a v : Word} {t : State} (h : s.memInMap = true) (ht : s.memWrite a v = .ok t) :
    t.memInMap = true := by
  obtain ⟨hm, rfl⟩ := (memWrite_ok_iff s).1 ht
  have hm := (firstUnmapped_eq_none_iff s a).1 hm
  simp only [State.memInMap, List.all_eq_true, putWord_mem, putWord_cfg] at h ⊢
  intro c hc
  rcases Memory.mem_place hc with hc | ⟨d, hd, rfl⟩
  · exact h c hc
  · exact hm d.1 (List.of_mem_zip hd).1

/-- What follows an access: its value, or its fault. -/
theorem orFault_eq_next_iff {α : Type} {r : Except Fault α} {k : α → Result} {t : State} :
    orFault r k = .next t ↔ ∃ v, r = .ok v ∧ k v = .next t := by
  cases r <;> simp [orFault]

theorem orFault_eq_fault_iff {α : Type} {r : Except Fault α} {k : α → Result} {f : Fault} :
    orFault r k = .fault f ↔ r = .error f ∨ ∃ v, r = .ok v ∧ k v = .fault f := by
  cases r <;> simp [orFault]

theorem orFault_eq_refused_iff {α : Type} {r : Except Fault α} {k : α → Result} {q : Refusal} :
    orFault r k = .refused q ↔ ∃ v, r = .ok v ∧ k v = .refused q := by
  cases r <;> simp [orFault]

/-! ### The end of a step -/

/-- A defined instruction leaves "the run has ended" as it was. -/
@[simp] theorem endedAfter_defined : s.endedAfter .defined = s.ended := by
  simp [State.endedAfter, Verdict.stopReason]

/-- All that `advance` does (R114, R117). -/
theorem advance_eq_next_iff {len : Word} {t : State} :
    s.advance len = .next t ↔ t = s.conclude .defined (s.pc + len) := by
  simp [State.advance, eq_comm]

/-- All that a taken jump does (R115, R117). -/
theorem jump_eq_next_iff {len target : Word} {t : State} :
    s.jump len target = .next t ↔
      t = s.conclude .defined (if s.cfg.jumpAddsLen then target + len else target) := by
  unfold State.jump
  exact ⟨fun h => (Host.Outcome.next.inj h).symm, fun h => h ▸ rfl⟩

/-- All that a trapping encoding does (R116, R117, R118). -/
theorem trap_eq_next_iff {v : Verdict} {t : State} :
    s.trap v = .next t ↔ t = s.conclude v (s.pc + s.cfg.lenShort) := by
  simp [State.trap, eq_comm]

/-! ### Fetch and step -/

/-- A fetch that answers: the slot and, for a long instruction, the constant are in `MEM`, and the instruction is what
they decode to (R111, R112). -/
theorem fetch_ok_iff {i : Instr} :
    s.fetch = .ok i ↔ s.firstUnmapped s.pc = none ∧
      (if hasConst (slotHead s.cfg.slotLayout (s.wordAt s.pc)) then
        s.firstUnmapped (s.pc + 4) = none ∧
          i = decode (slotHead s.cfg.slotLayout (s.wordAt s.pc)) (s.wordAt (s.pc + 4))
      else i = decode (slotHead s.cfg.slotLayout (s.wordAt s.pc)) 0) := by
  unfold State.fetch State.memRead
  cases h : s.firstUnmapped s.pc with
  | some b => simp
  | none =>
    by_cases hc : hasConst (slotHead s.cfg.slotLayout (s.wordAt s.pc)) = true
    · cases h4 : s.firstUnmapped (s.pc + 4) <;> simp [hc, eq_comm]
    · simp [hc, eq_comm]

/-- A step that answers runs the fetched instruction in a run that has not ended (R110). -/
theorem step_eq_next_iff {t : State} :
    step s = .next t ↔ s.ended = none ∧ ∃ i, s.fetch = .ok i ∧ exec i s = .next t := by
  unfold step
  cases s.ended <;> cases s.fetch <;> simp

/-- A step that faults: the fetch or the instruction does. -/
theorem step_eq_fault_iff {f : Fault} :
    step s = .fault f ↔ s.ended = none ∧ (s.fetch = .error f ∨ ∃ i, s.fetch = .ok i ∧ exec i s = .fault f) := by
  unfold step
  cases s.ended <;> cases s.fetch <;> simp

end Machine

end Sys2Proof
end

