-- ==== Sys2Proof/Laws/PerInstr.lean ====
section
/-! SUPPORT. The per-instruction family `ImageLaw`: the encoder emits a well-formed image of every instruction, of the
instruction's length and with zero padding, in both slot layouts (R80, R83, R99). -/

namespace Sys2Proof.Laws

/-- The image that the encoder emits for `i` is well-formed in both layouts. -/
def ImageLaw.Statement (i : Instr) : Prop := ∀ l : SlotLayout, i.imageWellFormed l (encode l i) = true

namespace ImageLaw

theorem invalidP1 (x y z : Label) : Statement (.invalidP1 x y z) := by intro l; cases l <;> rfl
theorem addr (x y z : Label) : Statement (.addr x y z) := by intro l; cases l <;> rfl
theorem subr (x y z : Label) : Statement (.subr x y z) := by intro l; cases l <;> rfl
theorem mulr (x y z : Label) : Statement (.mulr x y z) := by intro l; cases l <;> rfl
theorem divr (x y z : Label) : Statement (.divr x y z) := by intro l; cases l <;> rfl
theorem fixmulr (x y z : Label) : Statement (.fixmulr x y z) := by intro l; cases l <;> rfl
theorem fixdivr (x y z : Label) : Statement (.fixdivr x y z) := by intro l; cases l <;> rfl
theorem reservedP1Op7 (x y z : Label) : Statement (.reservedP1Op7 x y z) := by intro l; cases l <;> rfl
theorem reservedP1Op8 (x y z : Label) : Statement (.reservedP1Op8 x y z) := by intro l; cases l <;> rfl
theorem reservedP1Op9 (x y z : Label) : Statement (.reservedP1Op9 x y z) := by intro l; cases l <;> rfl
theorem reservedP1OpA (x y z : Label) : Statement (.reservedP1OpA x y z) := by intro l; cases l <;> rfl
theorem reservedP1OpB (x y z : Label) : Statement (.reservedP1OpB x y z) := by intro l; cases l <;> rfl
theorem reservedP1OpC (x y z : Label) : Statement (.reservedP1OpC x y z) := by intro l; cases l <;> rfl
theorem reservedP1OpD (x y z : Label) : Statement (.reservedP1OpD x y z) := by intro l; cases l <;> rfl
theorem reservedP1OpE (x y z : Label) : Statement (.reservedP1OpE x y z) := by intro l; cases l <;> rfl
theorem invalidP2 (x y : Label) : Statement (.invalidP2 x y) := by intro l; cases l <;> rfl
theorem writer (x y : Label) : Statement (.writer x y) := by intro l; cases l <;> rfl
theorem readr (x y : Label) : Statement (.readr x y) := by intro l; cases l <;> rfl
theorem movr (x y : Label) : Statement (.movr x y) := by intro l; cases l <;> rfl
theorem cmpr (x y : Label) : Statement (.cmpr x y) := by intro l; cases l <;> rfl
theorem lshiftr (x y : Label) : Statement (.lshiftr x y) := by intro l; cases l <;> rfl
theorem ashiftr (x y : Label) : Statement (.ashiftr x y) := by intro l; cases l <;> rfl
theorem rollr (x y : Label) : Statement (.rollr x y) := by intro l; cases l <;> rfl
theorem andr (x y : Label) : Statement (.andr x y) := by intro l; cases l <;> rfl
theorem orr (x y : Label) : Statement (.orr x y) := by intro l; cases l <;> rfl
theorem xorr (x y : Label) : Statement (.xorr x y) := by intro l; cases l <;> rfl
theorem reservedP2OpB (x y : Label) : Statement (.reservedP2OpB x y) := by intro l; cases l <;> rfl
theorem reservedP2OpC (x y : Label) : Statement (.reservedP2OpC x y) := by intro l; cases l <;> rfl
theorem reservedP2OpD (x y : Label) : Statement (.reservedP2OpD x y) := by intro l; cases l <;> rfl
theorem reservedP2OpE (x y : Label) : Statement (.reservedP2OpE x y) := by intro l; cases l <;> rfl
theorem invalidP3 (x : Label) : Statement (.invalidP3 x) := by intro l; cases l <;> rfl
theorem readc (x : Label) (k : Word) : Statement (.readc x k) := by intro l; cases l <;> rfl
theorem writec (x : Label) (k : Word) : Statement (.writec x k) := by intro l; cases l <;> rfl
theorem movc (x : Label) (k : Word) : Statement (.movc x k) := by intro l; cases l <;> rfl
theorem jmpr (x : Label) : Statement (.jmpr x) := by intro l; cases l <;> rfl
theorem cmpc (x : Label) (k : Word) : Statement (.cmpc x k) := by intro l; cases l <;> rfl
theorem lshiftc (x : Label) (k : Word) : Statement (.lshiftc x k) := by intro l; cases l <;> rfl
theorem ashiftc (x : Label) (k : Word) : Statement (.ashiftc x k) := by intro l; cases l <;> rfl
theorem rollc (x : Label) (k : Word) : Statement (.rollc x k) := by intro l; cases l <;> rfl
theorem andc (x : Label) (k : Word) : Statement (.andc x k) := by intro l; cases l <;> rfl
theorem orc (x : Label) (k : Word) : Statement (.orc x k) := by intro l; cases l <;> rfl
theorem notr (x : Label) : Statement (.notr x) := by intro l; cases l <;> rfl
theorem xorc (x : Label) (k : Word) : Statement (.xorc x k) := by intro l; cases l <;> rfl
theorem reservedP3OpD (x : Label) : Statement (.reservedP3OpD x) := by intro l; cases l <;> rfl
theorem reservedP3OpE (x : Label) : Statement (.reservedP3OpE x) := by intro l; cases l <;> rfl
theorem invalidP4 : Statement (.invalidP4) := by intro l; cases l <;> rfl
theorem nop : Statement (.nop) := by intro l; cases l <;> rfl
theorem jmp (k : Word) : Statement (.jmp k) := by intro l; cases l <;> rfl
theorem je (k : Word) : Statement (.je k) := by intro l; cases l <;> rfl
theorem jg (k : Word) : Statement (.jg k) := by intro l; cases l <;> rfl
theorem jl (k : Word) : Statement (.jl k) := by intro l; cases l <;> rfl
theorem reservedP4Op6 : Statement (.reservedP4Op6) := by intro l; cases l <;> rfl
theorem reservedP4Op7 : Statement (.reservedP4Op7) := by intro l; cases l <;> rfl
theorem reservedP4Op8 : Statement (.reservedP4Op8) := by intro l; cases l <;> rfl
theorem reservedP4Op9 : Statement (.reservedP4Op9) := by intro l; cases l <;> rfl
theorem reservedP4OpA : Statement (.reservedP4OpA) := by intro l; cases l <;> rfl
theorem reservedP4OpB : Statement (.reservedP4OpB) := by intro l; cases l <;> rfl
theorem reservedP4OpC : Statement (.reservedP4OpC) := by intro l; cases l <;> rfl
theorem reservedP4OpD : Statement (.reservedP4OpD) := by intro l; cases l <;> rfl
theorem reservedP4OpE : Statement (.reservedP4OpE) := by intro l; cases l <;> rfl
theorem decoderError : Statement (.decoderError) := by intro l; cases l <;> rfl

end ImageLaw

end Sys2Proof.Laws
end

