-- ==== Sys2Proof/Tests/Slice0.lean ====
section
/-! SUPPORT. The model's own tests: ill-formed data refused, every constructor's encoding as the spec writes it, one step
at a time from the vectors of 95_test_vectors.md (each named in its comment), and for every statement with hypotheses a
state and operands that meet them. -/

namespace Sys2Proof.Tests

open Sys2Proof.Machine

/-! ## Helpers -/

/-- Bytes with consecutive addresses from `a` on. -/
def bytesFrom (a : Word) (bytes : List Byte) : List (Word × Byte) :=
  ((List.range bytes.length).map (fun n => a + BitVec.ofNat 32 n)).zip bytes

/-- The vectors' start (95_test_vectors.md, conventions): `pc = 0x1000`, the instruction there, flags 0, every register
`0xDEADBEEF` but those given, and the data given. -/
def start (bytes : List Byte) (regs : List (Label × Word)) (data : List (Word × Byte) := []) : State :=
  regs.foldl (fun s r => s.setReg r.1 r.2)
    (State.launch
      { Launch.blank with
        entry := 0x1000
        initRegs := Vector.replicate 16 0xDEADBEEF
        image := bytesFrom 0x1000 bytes ++ data })

/-- The vectors' machine of 256 bytes (section 8), `pc` and bytes as given. -/
def small (pc : Word) (a : Word) (bytes : List Byte) (regs : List (Label × Word)) : State :=
  regs.foldl (fun s r => s.setReg r.1 r.2)
    (State.launch
      { Launch.blank with
        config := { Config.taken with memMap := [⟨0, 256⟩] }
        entry := pc
        image := bytesFrom a bytes })

/-- The state with its flags changed. -/
def withFlags (s : State) (f : Flags → Flags) : State := { s with flags := f s.flags }

/-- The state under other parameters. -/
def underConfig (s : State) (f : Config → Config) : State := { s with cfg := f s.cfg }

/-- What `f` says of the state after one step. -/
def after {α : Type} (s : State) (f : State → α) : Option α := (nextState? (step s)).map f

/-- Whether a step faults at `a`. -/
def faultsAt (s : State) (a : Word) : Bool :=
  match step s with
  | .fault (.memoryFault b) => decide (a = b)
  | .next _ => false
  | .refused _ => false

/-! ## Ill-formed data is refused (WellFormed.lean) -/

theorem test_image_too_short : (Instr.movc 0 5).imageWellFormed .memoryOrder [0xFF, 0x30, 0, 0] = false := by decide
theorem test_image_too_long : (Instr.notr 0).imageWellFormed .memoryOrder [0xFF, 0xB0, 0, 0, 0] = false := by decide
theorem test_image_padding : (Instr.notr 0).imageWellFormed .memoryOrder [0xFF, 0xB0, 0, 1] = false := by decide
theorem test_image_padding_other :
    (Instr.notr 0).imageWellFormed .wordMsbFirst [0xFF, 0, 0xB0, 0xFF] = false := by decide
theorem test_image_well_formed : (Instr.notr 0).imageWellFormed .memoryOrder [0xFF, 0xB0, 0, 0] = true := by decide
theorem test_region_empty : Region.wellFormed ⟨0x100, 0⟩ = false := by decide
theorem test_region_past_the_top : Region.wellFormed ⟨0xFFFFFFFF, 2⟩ = false := by decide
theorem test_config_bad_region : Config.wellFormed { Config.taken with memMap := [⟨0, 16⟩, ⟨32, 0⟩] } = false := by
  decide
theorem test_config_taken : Config.wellFormed Config.taken = true := by decide
theorem test_decode_cut_off_slot : decodeBytes .memoryOrder [0x10, 0x12, 0] = .error .cutOffSlot := by decide
theorem test_decode_cut_off_constant :
    decodeBytes .memoryOrder [0xFF, 0x30, 0, 0, 1, 2, 3] = .error .cutOffConstant := by decide

/-! ## Decoding: every constructor from its bytes, written out from R88 and V-DEC -/

/-- The bytes decode to the instruction, with nothing left over. -/
abbrev Decodes (bytes : List Byte) (i : Instr) : Prop := decodeBytes .memoryOrder bytes = .ok (i, [])

theorem test_decode_page1 : ∀ p ∈ ([
    ([0x0A, 0xBC, 0, 0], .invalidP1 10 11 12),
    ([0x1A, 0xBC, 0, 0], .addr 10 11 12),
    ([0x2A, 0xBC, 0, 0], .subr 10 11 12),
    ([0x3A, 0xBC, 0, 0], .mulr 10 11 12),
    ([0x4A, 0xBC, 0, 0], .divr 10 11 12),
    ([0x5A, 0xBC, 0, 0], .fixmulr 10 11 12),
    ([0x6A, 0xBC, 0, 0], .fixdivr 10 11 12),
    ([0x7A, 0xBC, 0, 0], .reservedP1Op7 10 11 12),
    ([0x8A, 0xBC, 0, 0], .reservedP1Op8 10 11 12),
    ([0x9A, 0xBC, 0, 0], .reservedP1Op9 10 11 12),
    ([0xAA, 0xBC, 0, 0], .reservedP1OpA 10 11 12),
    ([0xBA, 0xBC, 0, 0], .reservedP1OpB 10 11 12),
    ([0xCA, 0xBC, 0, 0], .reservedP1OpC 10 11 12),
    ([0xDA, 0xBC, 0, 0], .reservedP1OpD 10 11 12),
    ([0xEA, 0xBC, 0, 0], .reservedP1OpE 10 11 12)] : List (List Byte × Instr)), Decodes p.1 p.2 := by
  decide

theorem test_decode_page2 : ∀ p ∈ ([
    ([0xF0, 0xAB, 0, 0], .invalidP2 10 11),
    ([0xF1, 0xAB, 0, 0], .writer 10 11),
    ([0xF2, 0xAB, 0, 0], .readr 10 11),
    ([0xF3, 0xAB, 0, 0], .movr 10 11),
    ([0xF4, 0xAB, 0, 0], .cmpr 10 11),
    ([0xF5, 0xAB, 0, 0], .lshiftr 10 11),
    ([0xF6, 0xAB, 0, 0], .ashiftr 10 11),
    ([0xF7, 0xAB, 0, 0], .rollr 10 11),
    ([0xF8, 0xAB, 0, 0], .andr 10 11),
    ([0xF9, 0xAB, 0, 0], .orr 10 11),
    ([0xFA, 0xAB, 0, 0], .xorr 10 11),
    ([0xFB, 0xAB, 0, 0], .reservedP2OpB 10 11),
    ([0xFC, 0xAB, 0, 0], .reservedP2OpC 10 11),
    ([0xFD, 0xAB, 0, 0], .reservedP2OpD 10 11),
    ([0xFE, 0xAB, 0, 0], .reservedP2OpE 10 11)] : List (List Byte × Instr)), Decodes p.1 p.2 := by
  decide

theorem test_decode_page3 : ∀ p ∈ ([
    ([0xFF, 0x0A, 0, 0], .invalidP3 10),
    ([0xFF, 0x1A, 0, 0, 0x44, 0x33, 0x22, 0x11], .readc 10 0x11223344),
    ([0xFF, 0x2A, 0, 0, 0x44, 0x33, 0x22, 0x11], .writec 10 0x11223344),
    ([0xFF, 0x3A, 0, 0, 0x44, 0x33, 0x22, 0x11], .movc 10 0x11223344),
    ([0xFF, 0x4A, 0, 0], .jmpr 10),
    ([0xFF, 0x5A, 0, 0, 0x44, 0x33, 0x22, 0x11], .cmpc 10 0x11223344),
    ([0xFF, 0x6A, 0, 0, 0x44, 0x33, 0x22, 0x11], .lshiftc 10 0x11223344),
    ([0xFF, 0x7A, 0, 0, 0x44, 0x33, 0x22, 0x11], .ashiftc 10 0x11223344),
    ([0xFF, 0x8A, 0, 0, 0x44, 0x33, 0x22, 0x11], .rollc 10 0x11223344),
    ([0xFF, 0x9A, 0, 0, 0x44, 0x33, 0x22, 0x11], .andc 10 0x11223344),
    ([0xFF, 0xAA, 0, 0, 0x44, 0x33, 0x22, 0x11], .orc 10 0x11223344),
    ([0xFF, 0xBA, 0, 0], .notr 10),
    ([0xFF, 0xCA, 0, 0, 0x44, 0x33, 0x22, 0x11], .xorc 10 0x11223344),
    ([0xFF, 0xDA, 0, 0], .reservedP3OpD 10),
    ([0xFF, 0xEA, 0, 0], .reservedP3OpE 10)] : List (List Byte × Instr)), Decodes p.1 p.2 := by
  decide

theorem test_decode_page4 : ∀ p ∈ ([
    ([0xFF, 0xF0, 0, 0], .invalidP4),
    ([0xFF, 0xF1, 0, 0], .nop),
    ([0xFF, 0xF2, 0, 0, 0x44, 0x33, 0x22, 0x11], .jmp 0x11223344),
    ([0xFF, 0xF3, 0, 0, 0x44, 0x33, 0x22, 0x11], .je 0x11223344),
    ([0xFF, 0xF4, 0, 0, 0x44, 0x33, 0x22, 0x11], .jg 0x11223344),
    ([0xFF, 0xF5, 0, 0, 0x44, 0x33, 0x22, 0x11], .jl 0x11223344),
    ([0xFF, 0xF6, 0, 0], .reservedP4Op6),
    ([0xFF, 0xF7, 0, 0], .reservedP4Op7),
    ([0xFF, 0xF8, 0, 0], .reservedP4Op8),
    ([0xFF, 0xF9, 0, 0], .reservedP4Op9),
    ([0xFF, 0xFA, 0, 0], .reservedP4OpA),
    ([0xFF, 0xFB, 0, 0], .reservedP4OpB),
    ([0xFF, 0xFC, 0, 0], .reservedP4OpC),
    ([0xFF, 0xFD, 0, 0], .reservedP4OpD),
    ([0xFF, 0xFE, 0, 0], .reservedP4OpE)] : List (List Byte × Instr)), Decodes p.1 p.2 := by
  decide

theorem test_decode_error : ∀ p ∈ ([
    ([0xFF, 0xFF, 0, 0], .decoderError)] : List (List Byte × Instr)), Decodes p.1 p.2 := by
  decide

/-- V-LAY: the other slot layout. -/
theorem test_decode_other_layout :
    decodeBytes .wordMsbFirst [0, 0, 0x30, 0xFF, 0x44, 0x33, 0x22, 0x11] = .ok (.movc 0 0x11223344, []) := by decide
/-- V-PAD. -/
theorem test_decode_padding : Decodes [0x10, 0x12, 0x34, 0x56] (.addr 0 1 2) := by decide
/-- V-ENC. -/
theorem test_encode_rollc : encode .memoryOrder (.rollc 0 0xFFFFFFFC) = [0xFF, 0x80, 0, 0, 0xFC, 0xFF, 0xFF, 0xFF] := by
  decide
theorem test_encode_fixdivr : encode .wordMsbFirst (.fixdivr 3 0 2) = [0, 0, 0x02, 0x63] := by decide
/-- The opcode table's numbering (log 26). -/
theorem test_table_word : decodeTableWord 16 0x1ABC = some (.addr 10 11 12) := by decide
theorem test_table_word_long : decodeTableWord 16 0xFF3A = some (.movc 10 0) := by decide

/-! ## Reset, and an instruction as the first after it -/

theorem test_reset_memory_wf : State.reset.mem.wf := by decide
/-- R34 gives the two trap flags and the reserved bits; the rest is log 1 to 3. -/
theorem test_reset_trap_flags : State.reset.flags.reservedInstruction = false ∧
    State.reset.flags.invalidInstruction = false ∧ State.reset.flags.reserved = 0 ∧ State.reset.ended = none := by
  decide
theorem test_first_step_movc :
    after (State.reset.withFetchWord 64 0xDEADBEEF0000FF3A) (fun t => (t.reg 10, t.pc)) = some (0xDEADBEEF, 8) := by
  decide
theorem test_first_step_zero_trap :
    after State.reset (fun t => (t.ended, t.pc)) = some (some .invalidInstruction, 4) := by decide

/-! ## One step each, from the vectors -/

/-- V-ADD2. -/
theorem test_addr_overflow :
    after (start [0x10, 0x12, 0, 0] [(1, 0x7FFFFFFF), (2, 1)])
      (fun t => (t.reg 0, t.flags.overflow, t.flags.underflow)) =
      some (0x80000000, true, false) := by decide

/-- V-ADD10, with one register three times. -/
theorem test_addr_same :
    after (start [0x13, 0x33, 0, 0] [(3, 0x40000000)])
      (fun t => (t.reg 3, t.flags.overflow, t.pc)) =
      some (0x80000000, true, 0x1004) := by decide

/-- V-SUB3. -/
theorem test_subr_underflow :
    after (start [0x20, 0x12, 0, 0] [(1, 0x80000000), (2, 1)])
      (fun t => (t.reg 0, t.flags.overflow, t.flags.underflow)) =
      some (0x7FFFFFFF, false, true) := by decide

/-- V-SUB5. -/
theorem test_subr_overflow :
    after (start [0x20, 0x12, 0, 0] [(1, 0), (2, 0x80000000)])
      (fun t => (t.reg 0, t.flags.overflow, t.flags.underflow)) =
      some (0x80000000, true, false) := by decide

/-- V-MUL5. -/
theorem test_mulr_signed :
    after (start [0x30, 0x12, 0, 0] [(0, 0x80000000), (1, 0x7FFFFFFF)])
      (fun t => (t.reg 0, t.reg 1, t.reg 2)) =
      some (0x80000000, 0xC0000000, 0x80000000) := by decide

/-- V-MUL11: where Y and Z are one register, the low word survives. -/
theorem test_mulr_same :
    after (start [0x30, 0x11, 0, 0] [(0, 0xFFFFFFFF), (1, 2)])
      (fun t => t.reg 1) =
      some 0xFFFFFFFE := by decide

/-- V-DIV2. -/
theorem test_divr_toward_zero :
    after (start [0x40, 0x12, 0, 0] [(1, 0xFFFFFFF9), (2, 2)])
      (fun t => (t.reg 0, t.flags.zeroDiv)) =
      some (0xFFFFFFFD, false) := by decide

/-- V-DIV10. -/
theorem test_divr_by_zero :
    after (start [0x40, 0x12, 0, 0] [(1, 0xFFFFFFFB), (2, 0)])
      (fun t => (t.reg 0, t.flags.zeroDiv)) =
      some (0x80000000, true) := by decide

/-- V-FMUL6. -/
theorem test_fixmulr_floor :
    after (start [0x50, 0x12, 0, 0] [(1, 0xFFFFFFFF), (2, 1)])
      (fun t => (t.reg 0, t.flags.overflow, t.flags.underflow)) =
      some (0xFFFFFFFF, false, false) := by decide

/-- V-FMUL20. -/
theorem test_fixmulr_overflow :
    after (start [0x50, 0x12, 0, 0] [(1, 0x80000000), (2, 0xFFFF0000)])
      (fun t => (t.reg 0, t.flags.overflow)) =
      some (0x80000000, true) := by decide

/-- V-FDIV3. -/
theorem test_fixdivr_toward_zero :
    after (start [0x60, 0x12, 0, 0] [(1, 0xFFFF0000), (2, 0x00030000)])
      (fun t => (t.reg 0, t.flags.zeroDiv)) =
      some (0xFFFFAAAB, false) := by decide

/-- V-FDIV9: an exact quotient out of range sets no flag. -/
theorem test_fixdivr_narrows :
    after (start [0x60, 0x12, 0, 0] [(1, 0x00008000), (2, 1)])
      (fun t => (t.reg 0, t.flags.overflow)) =
      some (0x80000000, false) := by decide

/-- V-TRAP1.3. -/
theorem test_zero_trap_page1 :
    after (start [0x01, 0x23, 0xAA, 0x55] [])
      (fun t => (t.pc, t.flags.invalidInstruction, t.flags.reservedInstruction, t.ended)) =
      some (0x1004, true, false, some .invalidInstruction) := by decide

/-- V-TRAP1.7. -/
theorem test_reserved_page1 :
    after (start [0xA1, 0x23, 0, 0] [])
      (fun t => (t.pc, t.flags.invalidInstruction, t.flags.reservedInstruction, t.ended)) =
      some (0x1004, false, true, some .reservedInstruction) := by decide

/-- V-WR3. -/
theorem test_writer_wraps :
    after (start [0xF1, 0x01, 0, 0] [(0, 0xAABBCCDD), (1, 0xFFFFFFFE)])
      (fun t => [0xFFFFFFFE, 0xFFFFFFFF, 0, 1, 2].map t.byteAt) =
      some [0xDD, 0xCC, 0xBB, 0xAA, 0] := by decide

/-- V-RD1. -/
theorem test_readr_misaligned :
    after (start [0xF2, 0x32, 0, 0] [(2, 0x101)] (bytesFrom 0x100 [0x44, 0x33, 0x22, 0x11, 0xAA, 0xBB, 0xCC, 0xDD]))
      (fun t => t.reg 3) =
      some 0xAA112233 := by decide

/-- V-RD5. -/
theorem test_readr_own_slot :
    after (start [0xF2, 0x01, 0, 0] [(1, 0x1000)])
      (fun t => t.reg 0) =
      some 0x000001F2 := by decide

/-- V-MOV. -/
theorem test_movr :
    after (start [0xF3, 0x15, 0, 0] [(5, 0xCAFEF00D)])
      (fun t => (t.reg 1, t.reg 5)) =
      some (0xCAFEF00D, 0xCAFEF00D) := by decide

/-- V-CMP8. -/
theorem test_cmpr_wide :
    after (start [0xF4, 0x01, 0, 0] [(0, 0x80000000), (1, 0x7FFFFFFF)])
      (fun t => (t.flags.equal, t.flags.greaterThan, t.flags.lessThan)) =
      some (false, false, true) := by decide

/-- V-LSH4. -/
theorem test_lshiftr_right :
    after (start [0xF5, 0x01, 0, 0] [(0, 0xF0000000), (1, 0xFFFFFFFC)])
      (fun t => t.reg 0) =
      some 0x0F000000 := by decide

/-- V-LSH12. -/
theorem test_lshiftr_int_min :
    after (start [0xF5, 0x01, 0, 0] [(0, 0xFFFFFFFF), (1, 0x80000000)])
      (fun t => t.reg 0) =
      some 0 := by decide

/-- V-ASH17. -/
theorem test_ashiftr_floor :
    after (start [0xF6, 0x01, 0, 0] [(0, 0xFFFFFFF9), (1, 0xFFFFFFFF)])
      (fun t => t.reg 0) =
      some 0xFFFFFFFC := by decide

/-- V-ASH8. -/
theorem test_ashiftr_left :
    after (start [0xF6, 0x01, 0, 0] [(0, 0x40000000), (1, 1)])
      (fun t => t.reg 0) =
      some 0x80000000 := by decide

/-- V-ROL9. -/
theorem test_rollr_right :
    after (start [0xF7, 0x01, 0, 0] [(0, 0x12345678), (1, 0xFFFFFFDC)])
      (fun t => t.reg 0) =
      some 0x81234567 := by decide

/-- V-ROL11. -/
theorem test_rollr_left :
    after (start [0xF7, 0x01, 0, 0] [(0, 0x12345678), (1, 0x7FFFFFFF)])
      (fun t => t.reg 0) =
      some 0x091A2B3C := by decide

/-- V-LOG. -/
theorem test_andr :
    after (start [0xF8, 0x01, 0, 0] [(0, 0xFF00FF00), (1, 0x0FF00FF0)])
      (fun t => t.reg 0) =
      some 0x0F000F00 := by decide

/-- V-LOG. -/
theorem test_orr :
    after (start [0xF9, 0x01, 0, 0] [(0, 0xFF00FF00), (1, 0x0FF00FF0)])
      (fun t => t.reg 0) =
      some 0xFFF0FFF0 := by decide

/-- V-LOG. -/
theorem test_xorr :
    after (start [0xFA, 0x01, 0, 0] [(0, 0xFF00FF00), (1, 0x0FF00FF0)])
      (fun t => t.reg 0) =
      some 0xF0F0F0F0 := by decide

/-- V-TRAP2.4. -/
theorem test_reserved_page2 :
    after (start [0xFC, 0x12, 0, 0] [])
      (fun t => (t.pc, t.flags.reservedInstruction, t.ended)) =
      some (0x1004, true, some .reservedInstruction) := by decide

/-- V-RC1. -/
theorem test_readc_copies :
    after (start [0xFF, 0x14, 0, 0, 0, 0x01, 0, 0] [] (bytesFrom 0x100 [0x44, 0x33, 0x22, 0x11]))
      (fun t => t.reg 4) =
      some 0x100 := by decide

/-- V-RC1, under the other reading of READC_IS_LOAD. -/
theorem test_readc_loads :
    after (underConfig (start [0xFF, 0x14, 0, 0, 0, 0x01, 0, 0] [] (bytesFrom 0x100 [0x44, 0x33, 0x22, 0x11])) fun c => { c with readcIsLoad := true })
      (fun t => t.reg 4) =
      some 0x11223344 := by decide

/-- V-WC3. -/
theorem test_writec_wraps :
    after (start [0xFF, 0x20, 0, 0, 0xFF, 0xFF, 0xFF, 0xFF] [(0, 0xA1B2C3D4)])
      (fun t => [0xFFFFFFFF, 0, 1, 2].map t.byteAt) =
      some [0xD4, 0xC3, 0xB2, 0xA1] := by decide

/-- V-MC1. -/
theorem test_movc :
    after (start [0xFF, 0x30, 0, 0, 0x44, 0x33, 0x22, 0x11] [])
      (fun t => (t.reg 0, t.pc)) =
      some (0x11223344, 0x1008) := by decide

/-- R6, R24: another value of LEN_LONG. -/
theorem test_movc_other_length :
    after (underConfig (start [0xFF, 0x30, 0, 0, 0x44, 0x33, 0x22, 0x11] []) fun c => { c with lenLong := 12 })
      (fun t => (t.reg 0, t.pc)) =
      some (0x11223344, 0x100C) := by decide

/-- V-JR3. -/
theorem test_jmpr :
    after (start [0xFF, 0x42, 0, 0] [(2, 0xFFFFFFFF)])
      (fun t => t.pc) =
      some 0xFFFFFFFF := by decide

/-- V-CC6. -/
theorem test_cmpc :
    after (start [0xFF, 0x50, 0, 0, 0, 0, 0, 0x80] [(0, 0x7FFFFFFF)])
      (fun t => (t.flags.equal, t.flags.greaterThan, t.flags.lessThan)) =
      some (false, true, false) := by decide

/-- V-LSC2. -/
theorem test_lshiftc :
    after (start [0xFF, 0x60, 0, 0, 0xFC, 0xFF, 0xFF, 0xFF] [(0, 0xF0000000)])
      (fun t => t.reg 0) =
      some 0x0F000000 := by decide

/-- V-ASC3. -/
theorem test_ashiftc :
    after (start [0xFF, 0x70, 0, 0, 0xE0, 0xFF, 0xFF, 0xFF] [(0, 0x80000000)])
      (fun t => t.reg 0) =
      some 0xFFFFFFFF := by decide

/-- V-ROC4. -/
theorem test_rollc :
    after (start [0xFF, 0x80, 0, 0, 0x24, 0, 0, 0] [(0, 0x12345678)])
      (fun t => t.reg 0) =
      some 0x23456781 := by decide

/-- V-LGC1. -/
theorem test_andc :
    after (start [0xFF, 0x90, 0, 0, 0xFF, 0xFF, 0, 0] [(0, 0x12345678)])
      (fun t => t.reg 0) =
      some 0x00005678 := by decide

/-- V-LGC2. -/
theorem test_orc :
    after (start [0xFF, 0xA0, 0, 0, 0, 0, 0, 0xFF] [(0, 0x12345678)])
      (fun t => t.reg 0) =
      some 0xFF345678 := by decide

/-- V-NOT3. -/
theorem test_notr :
    after (start [0xFF, 0xB9, 0, 0] [(9, 0x12345678)])
      (fun t => t.reg 9) =
      some 0xEDCBA987 := by decide

/-- V-LGC3. -/
theorem test_xorc :
    after (start [0xFF, 0xC0, 0, 0, 0, 0, 0xFF, 0xFF] [(0, 0x12345678)])
      (fun t => t.reg 0) =
      some 0xEDCB5678 := by decide

/-- V-TRAP3.2. -/
theorem test_zero_trap_page3 :
    after (start [0xFF, 0x07, 0, 0] [])
      (fun t => (t.pc, t.flags.invalidInstruction)) =
      some (0x1004, true) := by decide

/-- V-TRAP4.6. -/
theorem test_decoder_error :
    after (start [0xFF, 0xFF, 0xFF, 0xFF] [])
      (fun t => (t.pc, t.flags.invalidInstruction, t.flags.reservedInstruction)) =
      some (0x1004, true, false) := by decide

/-- R218, D3: the target plus the length under JUMP_ADDS_LEN. -/
theorem test_jmp_adds_len :
    after (underConfig (start [0xFF, 0xF2, 0, 0, 0x18, 0, 0, 0] []) fun c => { c with jumpAddsLen := true })
      (fun t => t.pc) =
      some 0x20 := by decide

/-- V-J3. -/
theorem test_jmp :
    after (start [0xFF, 0xF2, 0, 0, 0xFD, 0xFF, 0xFF, 0xFF] [])
      (fun t => t.pc) =
      some 0xFFFFFFFD := by decide

/-- V-JE1. -/
theorem test_je_taken :
    after (withFlags (start [0xFF, 0xF3, 0, 0, 0x34, 0, 0, 0] []) fun f => { f with equal := true })
      (fun t => t.pc) =
      some 0x34 := by decide

/-- V-JG1. -/
theorem test_jg_taken :
    after (withFlags (start [0xFF, 0xF4, 0, 0, 0x34, 0, 0, 0] []) fun f => { f with greaterThan := true })
      (fun t => t.pc) =
      some 0x34 := by decide

/-- V-JL1. -/
theorem test_jl_taken :
    after (withFlags (start [0xFF, 0xF5, 0, 0, 0x34, 0, 0, 0] []) fun f => { f with lessThan := true })
      (fun t => t.pc) =
      some 0x34 := by decide

/-- V-JE2. -/
theorem test_je_not_taken :
    after (withFlags (start [0xFF, 0xF3, 0, 0, 0x34, 0, 0, 0] []) fun f => { f with greaterThan := true, lessThan := true })
      (fun t => (t.pc, t.flags.greaterThan, t.flags.lessThan)) =
      some (0x1008, true, true) := by decide

/-- V-NOP2. -/
theorem test_nop_wraps :
    after ({ start [] [] (bytesFrom 0xFFFFFFFC [0xFF, 0xF1, 0, 0]) with pc := 0xFFFFFFFC } : State) State.pc = some 0 := by
  decide

/-- V-FLG3, step 1 under `CONTINUE_AFTER_TRAP`. -/
theorem test_continue_after_trap :
    after (underConfig (start [0x7A, 0xBC, 0, 0] []) fun c => { c with continueAfterTrap := true })
      (fun t => (t.ended, t.flags.reservedInstruction)) = some (none, true) := by decide

/-- V-FLG4: less_than and invalid_instruction. -/
theorem test_flags_word :
    Flags.word .msb0 ⟨false, false, true, false, true, false, false, false, 0⟩ = 0x28000000 ∧
    Flags.word .lsb0 ⟨false, false, true, false, true, false, false, false, 0⟩ = 0x14 := by decide

/-- V-MF2. -/
theorem test_fault_constant : faultsAt (small 0xFC 0xFC [0xFF, 0x30, 0, 0] []) 0x100 = true := by decide
/-- V-MF3. -/
theorem test_fault_writer :
    faultsAt (small 0x10 0x10 [0xF1, 0x01, 0, 0] [(0, 0x11223344), (1, 0xFE)]) 0x100 = true := by decide
/-- V-MF4. -/
theorem test_fault_readr : faultsAt (small 0x10 0x10 [0xF2, 0x01, 0, 0] [(1, 0xFFFFFFFE)]) 0xFFFFFFFE = true := by
  decide
/-- V-MF5. -/
theorem test_no_fault_zero_trap : after (small 0xFC 0xFC [0xFF, 0x00, 0, 0] []) State.pc = some 0x100 := by decide
/-- V-MF6. -/
theorem test_fault_padding : faultsAt (small 0xFE 0xFE [0xFF, 0xF1] []) 0x100 = true := by decide
/-- V-MF7. -/
theorem test_fault_writec : faultsAt (small 0x10 0x10 [0xFF, 0x20, 0, 0, 0, 0x01, 0, 0] []) 0x100 = true := by decide

/-! ## Witnesses: the hypotheses of each statement can be met

One theorem for each statement with hypotheses, named after it; for a statement with several clauses, one witness for
each clause, at a boundary where its range has one. -/

theorem mapped_of_taken (s : State) (h : s.cfg = Config.taken) : s.AllMapped := by
  intro a
  have : a.toNat < 2 ^ 32 := a.isLt
  simp [State.mapped, h, Config.inMem, Config.taken]
  omega

/-- A word that wraps round the top of the address space. -/
theorem witness_StoredWordReadsBack : State.reset.memWrite 0xFFFFFFFE 0xAABBCCDD =
    .ok (State.reset.putWord 0xFFFFFFFE 0xAABBCCDD) := rfl

theorem witness_MisalignedLoadAfterStore :
    State.reset.memWrite 0x100 0x11223344 = .ok (State.reset.putWord 0x100 0x11223344) ∧
    (State.reset.putWord 0x100 0x11223344).memRead 0x101 = .ok 0x00112233 := ⟨rfl, rfl⟩

theorem witness_OnlyStoresChangeMemory :
    ∃ t, exec (.writec 0 0x200) (start [] []) = .next t ∧ t.byteAt 0x203 ≠ (start [] []).byteAt 0x203 :=
  ⟨_, rfl, by decide⟩

/-- A short instruction in the last slot of the machine of 256 bytes. -/
theorem witness_StepRunsDecodedInstruction_short :
    (small 0xFC 0xFC [0xFF, 0xF1] []).ended = none ∧
    (∀ (n : Nat) (b : Byte), ([0xFF, 0xF1, 0, 0] : List Byte)[n]? = some b →
      (small 0xFC 0xFC [0xFF, 0xF1] []).mapped (0xFC + BitVec.ofNat 32 n) = true ∧
        (small 0xFC 0xFC [0xFF, 0xF1] []).byteAt (0xFC + BitVec.ofNat 32 n) = b) ∧
    decodeBytes .memoryOrder [0xFF, 0xF1, 0, 0] = .ok (.nop, []) := by
  refine ⟨rfl, ?_, by decide⟩
  intro n b h
  match n, h with
  | 0, h => cases h; decide
  | 1, h => cases h; decide
  | 2, h => cases h; decide
  | 3, h => cases h; decide

/-- A long instruction that ends at the last byte. -/
theorem witness_StepRunsDecodedInstruction_long :
    (small 0xF8 0xF8 [0xFF, 0xF2, 0, 0, 0x10] []).ended = none ∧
    (∀ (n : Nat) (b : Byte), ([0xFF, 0xF2, 0, 0, 0x10, 0, 0, 0] : List Byte)[n]? = some b →
      (small 0xF8 0xF8 [0xFF, 0xF2, 0, 0, 0x10] []).mapped (0xF8 + BitVec.ofNat 32 n) = true ∧
        (small 0xF8 0xF8 [0xFF, 0xF2, 0, 0, 0x10] []).byteAt (0xF8 + BitVec.ofNat 32 n) = b) ∧
    decodeBytes .memoryOrder [0xFF, 0xF2, 0, 0, 0x10, 0, 0, 0] = .ok (.jmp 0x10, []) := by
  refine ⟨rfl, ?_, by decide⟩
  intro n b h
  match n, h with
  | 0, h => cases h; decide
  | 1, h => cases h; decide
  | 2, h => cases h; decide
  | 3, h => cases h; decide
  | 4, h => cases h; decide
  | 5, h => cases h; decide
  | 6, h => cases h; decide
  | 7, h => cases h; decide

theorem witness_EndedRunTakesNoStep :
    ({ State.reset with ended := some .reservedInstruction } : State).ended = some .reservedInstruction := rfl

/-- The slot's third byte is the first outside. -/
theorem witness_FetchFaultsInOrder_slot :
    (small 0xFE 0xFE [0xFF, 0xF1] []).ended = none ∧ FirstOutside (small 0xFE 0xFE [0xFF, 0xF1] []) 0xFE 0x100 :=
  ⟨rfl, 2, by decide, rfl, rfl, by decide⟩

/-- The slot is the last one, and its constant is wholly outside. -/
theorem witness_FetchFaultsInOrder_constant :
    (small 0xFC 0xFC [0xFF, 0x30] []).ended = none ∧ WordInMem (small 0xFC 0xFC [0xFF, 0x30] []) 0xFC ∧
    hasConst (slotHead .memoryOrder ((small 0xFC 0xFC [0xFF, 0x30] []).wordAt 0xFC)) = true ∧
    FirstOutside (small 0xFC 0xFC [0xFF, 0x30] []) (0xFC + 4) 0x100 :=
  ⟨rfl, ⟨rfl, rfl, rfl, rfl⟩, by decide, 0, by decide, rfl, rfl, by decide⟩

theorem witness_FetchFaultsInOrder_short :
    (small 0xFC 0xFC [0xFF, 0xF1] []).ended = none ∧ WordInMem (small 0xFC 0xFC [0xFF, 0xF1] []) 0xFC ∧
    hasConst (slotHead .memoryOrder ((small 0xFC 0xFC [0xFF, 0xF1] []).wordAt 0xFC)) = false :=
  ⟨rfl, ⟨rfl, rfl, rfl, rfl⟩, by decide⟩

theorem witness_StepFaultsOnlyOutsideMem :
    step (small 0xFE 0xFE [0xFF, 0xF1] []) = .fault (.memoryFault 0x100) := rfl

theorem witness_EveryStepCompletesInFullMemory : State.reset.AllMapped ∧ State.reset.ended = none :=
  ⟨mapped_of_taken _ rfl, rfl⟩

/-- A state with memory listed. -/
theorem witness_StepKeepsInvariant :
    (start [0xF1, 0x01, 0, 0] []).Inv ∧ ∃ t, step (start [0xF1, 0x01, 0, 0] []) = .next t :=
  ⟨⟨by decide, by decide, rfl, rfl⟩, _, rfl⟩

/-- An image whose last byte stands at the last address of `MEM`. -/
theorem witness_LaunchHasInvariant :
    ∀ c ∈ ({ Launch.blank with
        config := { Config.taken with memMap := [⟨0, 256⟩] }
        image := bytesFrom 0xFC [0xFF, 0xF1, 1, 2] } : Launch).image,
      ({ Config.taken with memMap := [⟨0, 256⟩] } : Config).inMem c.1.toNat = true :=
  List.all_eq_true.1 rfl

/-- An image that names one address twice: the last entry for it, and an address it does not name. -/
theorem witness_LaunchStateIsTheHosts :
    ({ Launch.blank with image := [(5, 1), (5, 2), (6, 3)] } : Launch).image = [(5, 1)] ++ (5, 2) :: [(6, 3)] ∧
    (∀ c ∈ ([(6, 3)] : List (Word × Byte)), c.1 ≠ 5) ∧
    ∀ c ∈ ({ Launch.blank with image := [(5, 1), (5, 2), (6, 3)] } : Launch).image, c.1 ≠ 0xFFFFFFFF :=
  ⟨rfl, by simp, by simp⟩

theorem witness_StepKeepsParameters : ∃ t, step (start [0xFF, 0xF1, 0, 0] []) = .next t := ⟨_, rfl⟩

/-- A step that ends the run, and one that does not. -/
theorem witness_TrapStopEndState :
    (∃ t, (start [0x7A, 0xBC, 0, 0] []).cfg.continueAfterTrap = false ∧ step (start [0x7A, 0xBC, 0, 0] []) = .next t ∧
      t.ended ≠ none) ∧
    ∃ t, step (start [0xFF, 0xF1, 0, 0] []) = .next t ∧ t.ended = none :=
  ⟨⟨_, rfl, rfl, by decide⟩, _, rfl, rfl⟩

/-- A trap under `CONTINUE_AFTER_TRAP`. -/
theorem witness_ContinuingMachineNeverEnds :
    ∃ t, (underConfig (start [0, 0, 0, 0] []) fun c => { c with continueAfterTrap := true }).cfg.continueAfterTrap = true ∧
      step (underConfig (start [0, 0, 0, 0] []) fun c => { c with continueAfterTrap := true }) = .next t :=
  ⟨_, rfl, rfl⟩

/-- A store of `notr R0` into the next slot, by writer, and by writec as in program P5. -/
theorem witness_StoreIsSeenByTheNextFetch_short :
    (∃ t, exec (.writer 0 1) (start [] [(0, 0xB0FF), (1, 0x1004)]) = .next t ∧ t.ended = none ∧
      (start [] [(0, 0xB0FF), (1, 0x1004)]).reg 1 = t.pc) ∧
    (∃ t, exec (.writec 0 0x1008) (start [] [(0, 0xB0FF), (1, 0x1004)]) = .next t ∧ t.ended = none ∧
      0x1008 = t.pc) ∧
    hasConst (slotHead .memoryOrder ((start [] [(0, 0xB0FF), (1, 0x1004)]).reg 0)) = false :=
  ⟨⟨_, rfl, rfl, rfl⟩, ⟨_, rfl, rfl, rfl⟩, by decide⟩

/-- A store of the slot of `movc R0` before a word in `MEM`. -/
theorem witness_StoreIsSeenByTheNextFetch_long :
    (∃ t, exec (.writec 0 0xF8) (small 0xF0 0 [] [(0, 0x30FF)]) = .next t ∧ t.ended = none ∧ 0xF8 = t.pc) ∧
    hasConst (slotHead .memoryOrder ((small 0xF0 0 [] [(0, 0x30FF)]).reg 0)) = true ∧
    WordInMem (small 0xF0 0 [] [(0, 0x30FF)]) (0xF8 + 4) :=
  ⟨⟨_, rfl, rfl, rfl⟩, by decide, rfl, rfl, rfl, rfl⟩

/-- The same store into the last slot of `MEM`. -/
theorem witness_StoreIsSeenByTheNextFetch_fault :
    (∃ t, exec (.writec 0 0xFC) (small 0xF4 0 [] [(0, 0x30FF)]) = .next t ∧ t.ended = none ∧ 0xFC = t.pc) ∧
    hasConst (slotHead .memoryOrder ((small 0xF4 0 [] [(0, 0x30FF)]).reg 0)) = true ∧
    FirstOutside (small 0xF4 0 [] [(0, 0x30FF)]) (0xFC + 4) 0x100 :=
  ⟨⟨_, rfl, rfl, rfl⟩, by decide, 0, by decide, rfl, rfl, by decide⟩

/-- A store into the constant of the `movc R0` in the next slot. -/
theorem witness_StoreIsSeenByTheNextFetch_constant :
    (∃ t, exec (.writec 0 0xFC) (small 0xF0 0xF8 [0xFF, 0x30] []) = .next t ∧ t.ended = none ∧ 0xFC = t.pc + 4) ∧
    WordInMem (small 0xF0 0xF8 [0xFF, 0x30] []) 0xF8 ∧
    hasConst (slotHead .memoryOrder ((small 0xF0 0xF8 [0xFF, 0x30] []).wordAt 0xF8)) = true :=
  ⟨⟨_, rfl, rfl, rfl⟩, ⟨rfl, rfl, rfl, rfl⟩, by decide⟩

/-- A defined, a reserved and an illegal instruction. -/
theorem witness_HandlerRunsAfterEveryInstruction :
    (∃ t, exec (.addr 0 0 0) State.reset = .next t) ∧ (∃ t, exec (.reservedP4OpE) State.reset = .next t) ∧
      ∃ t, exec .decoderError State.reset = .next t := ⟨⟨_, rfl⟩, ⟨_, rfl⟩, _, rfl⟩

/-- A state whose reserved bits are not 0. -/
theorem witness_ReservedFlagBitsAreZero :
    ∃ t, step (withFlags (start [0xFF, 0xF1, 0, 0] []) fun f => { f with reserved := 0xABCDEF }) = .next t := ⟨_, rfl⟩

theorem witness_RegistersChangeOnlyWhereWritten : ∃ t, exec (.mulr 0 1 2) State.reset = .next t := ⟨_, rfl⟩

/-- An instruction that writes none of the six flags, so that all three premises hold. -/
theorem witness_FlagsChangeOnlyWhereNamed :
    (∃ t, exec (.movr 0 1) State.reset = .next t) ∧ (¬ ∃ x y, Instr.movr 0 1 = .cmpr x y) ∧
    (¬ ∃ x k, Instr.movr 0 1 = .cmpc x k) ∧
    (¬ ∃ x y z, Instr.movr 0 1 = .addr x y z ∨ Instr.movr 0 1 = .subr x y z ∨ Instr.movr 0 1 = .fixmulr x y z) ∧
    ¬ ∃ x y z, Instr.movr 0 1 = .divr x y z ∨ Instr.movr 0 1 = .fixdivr x y z :=
  ⟨⟨_, rfl⟩, by simp, by simp, by simp, by simp⟩

/-- A long instruction whose advance wraps, at the lengths taken. -/
theorem witness_PcAdvancesByLength :
    (∃ t, exec (.movc 0 5) { State.reset with pc := 0xFFFFFFFC } = .next t) ∧ ¬ IsJump (.movc 0 5) ∧
    State.reset.cfg.lenShort = 4 ∧ State.reset.cfg.lenLong = 8 :=
  ⟨⟨_, rfl⟩, by simp [IsJump], rfl, rfl⟩

theorem witness_OverflowAndUnderflowExclude :
    (∃ t, exec (.subr 0 1 2) (start [] [(1, 0x80000000), (2, 1)]) = .next t) ∧
    ((start [] [(1, 0x80000000), (2, 1)]).flags.overflow && (start [] [(1, 0x80000000), (2, 1)]).flags.underflow) = false ∧
    ∃ x y z, Instr.subr 0 1 2 = .addr x y z ∨ Instr.subr 0 1 2 = .subr x y z ∨ Instr.subr 0 1 2 = .fixmulr x y z :=
  ⟨⟨_, rfl⟩, rfl, 0, 1, 2, .inr (.inl rfl)⟩

/-- Two different states that agree but for flags no instruction reads. -/
theorem witness_UnreadFlagsDoNotInterfere :
    State.reset.unreadFlagsCleared =
      (withFlags State.reset fun f => { f with zeroDiv := true, underflow := true }).unreadFlagsCleared ∧
    State.reset ≠ withFlags State.reset fun f => { f with zeroDiv := true, underflow := true } := ⟨rfl, by decide⟩

/-- The operands of V-CMP8, whose difference leaves the 32-bit range, from a register and as a constant. -/
theorem witness_CompareThenJumpFollowsSignedOrder :
    (∃ y, Instr.cmpr 0 1 = .cmpr 0 y ∧ (0x7FFFFFFF : Word) = (start [] [(0, 0x80000000), (1, 0x7FFFFFFF)]).reg y) ∧
    (∃ t, exec (.cmpr 0 1) (start [] [(0, 0x80000000), (1, 0x7FFFFFFF)]) = .next t) ∧
    Instr.cmpc 0 0x7FFFFFFF = .cmpc 0 0x7FFFFFFF ∧
    ∃ t, exec (.cmpc 0 0x7FFFFFFF) (start [] [(0, 0x80000000), (1, 0x7FFFFFFF)]) = .next t :=
  ⟨⟨1, rfl, by decide⟩, ⟨_, rfl⟩, rfl, _, rfl⟩

theorem witness_ConstantFormsAgreeWithRegisterForms :
    (Instr.xorc 3 (State.reset.reg 4), Instr.xorr 3 4) ∈
      [(Instr.cmpc 3 (State.reset.reg 4), Instr.cmpr 3 4), (.lshiftc 3 (State.reset.reg 4), .lshiftr 3 4),
        (.ashiftc 3 (State.reset.reg 4), .ashiftr 3 4), (.rollc 3 (State.reset.reg 4), .rollr 3 4),
        (.andc 3 (State.reset.reg 4), .andr 3 4), (.orc 3 (State.reset.reg 4), .orr 3 4),
        (.xorc 3 (State.reset.reg 4), .xorr 3 4)] := by decide

/-- A roll by the most negative constant, which is its own negation. -/
theorem witness_RollBackRestores :
    ∃ t u, exec (.rollc 0 0x80000000) (start [] [(0, 0x12345678)]) = .next t ∧ exec (.rollc 0 (-0x80000000)) t = .next u :=
  ⟨_, _, rfl, rfl⟩

theorem witness_FlagsWordLayout : (31 : Nat) < 32 := by decide

/-- A word that ends at the last byte of `MEM`, for writer and for writec. -/
theorem witness_StoresWriteOneWord :
    WordInMem (small 0 0 [] [(1, 0xFC)]) 0xFC ∧
    (∃ y, Instr.writer 0 1 = .writer 0 y ∧ (0xFC : Word) = (small 0 0 [] [(1, 0xFC)]).reg y) ∧
    Instr.writec 0 0xFC = .writec 0 0xFC :=
  ⟨⟨rfl, rfl, rfl, rfl⟩, ⟨1, rfl, by decide⟩, rfl⟩

theorem witness_ReadrLoadsOneWord :
    WordInMem (small 0 0 [] [(1, 0xFC)]) ((small 0 0 [] [(1, 0xFC)]).reg 1) := ⟨rfl, rfl, rfl, rfl⟩

/-- The last and the first byte of a word as the first outside, from a register and from a constant. -/
theorem witness_DataAccessFaultsAtFirstOutside :
    FirstOutside (small 0 0 [] [(1, 0xFD)]) ((small 0 0 [] [(1, 0xFD)]).reg 1) 0x100 ∧
    FirstOutside (small 0 0 [] [(1, 0xFD)]) 0xFFFFFFFF 0xFFFFFFFF :=
  ⟨⟨3, by decide, by decide, rfl, by decide⟩, 0, by decide, rfl, rfl, by decide⟩

/-- The same for readc where it loads. -/
theorem witness_DataAccessFaultsAtFirstOutside_readc :
    (underConfig (small 0 0 [] []) fun c => { c with readcIsLoad := true }).cfg.readcIsLoad = true ∧
    FirstOutside (underConfig (small 0 0 [] []) fun c => { c with readcIsLoad := true }) 0xFD 0x100 :=
  ⟨rfl, 3, by decide, by decide, rfl, by decide⟩

/-- Under `READC_IS_LOAD` with the word in `MEM`; and under the value taken, where nothing is asked of the constant. -/
theorem witness_ReadcCopiesOrLoads :
    (underConfig (small 0 0 [] []) fun c => { c with readcIsLoad := true }).cfg.readcIsLoad = true ∧
    WordInMem (underConfig (small 0 0 [] []) fun c => { c with readcIsLoad := true }) 0xFC ∧
    (small 0 0 [] []).cfg.readcIsLoad = false := ⟨rfl, ⟨rfl, rfl, rfl, rfl⟩, rfl⟩

theorem witness_CompareTellsSignedOrder :
    (∃ y, Instr.cmpr 0 1 = .cmpr 0 y ∧ (0xDEADBEEF : Word) = (start [] []).reg y) ∧
    Instr.cmpc 0 5 = .cmpc 0 5 := ⟨⟨1, rfl, by decide⟩, rfl⟩

/-- A positive and a negative count. -/
theorem witness_LogicalShiftBySignedCount :
    (∃ y, Instr.lshiftr 0 1 = .lshiftr 0 y ∧ (0x7FFFFFFF : Word) = (start [] [(1, 0x7FFFFFFF)]).reg y) ∧
    0 < (0x7FFFFFFF : Word).toInt ∧ (0x80000000 : Word).toInt ≤ 0 := ⟨⟨1, rfl, by decide⟩, by decide, by decide⟩

theorem witness_ArithmeticShiftBySignedCount :
    (∃ y, Instr.ashiftr 0 1 = .ashiftr 0 y ∧ (0x80000000 : Word) = (start [] [(1, 0x80000000)]).reg y) ∧
    0 < (1 : Word).toInt ∧ (0 : Word).toInt ≤ 0 := ⟨⟨1, rfl, by decide⟩, by decide, by decide⟩

theorem witness_RollMovesEveryBit :
    (∃ y, Instr.rollr 0 1 = .rollr 0 y ∧ (0x80000001 : Word) = (start [] [(1, 0x80000001)]).reg y) ∧ 31 < 32 :=
  ⟨⟨1, rfl, by decide⟩, by decide⟩

/-- je in a state where equal is 1, and jg where greater_than is 0. -/
theorem witness_ConditionalJumpsTestOneFlag :
    (Instr.je 8, true) ∈ [(Instr.je 8, (withFlags State.reset fun f => { f with equal := true }).flags.equal),
      (.jg 8, (withFlags State.reset fun f => { f with equal := true }).flags.greaterThan),
      (.jl 8, (withFlags State.reset fun f => { f with equal := true }).flags.lessThan)] ∧
    (Instr.jg 8, false) ∈ [(Instr.je 8, (withFlags State.reset fun f => { f with equal := true }).flags.equal),
      (.jg 8, (withFlags State.reset fun f => { f with equal := true }).flags.greaterThan),
      (.jl 8, (withFlags State.reset fun f => { f with equal := true }).flags.lessThan)] := by decide

theorem witness_InvalidInstructionsTrap : Instr.decoderError ∈ trapsInvalid 0 1 2 := by decide

theorem witness_ReservedInstructionsTrap : Instr.reservedP4OpE ∈ trapsReserved 0 1 2 := by decide

end Sys2Proof.Tests
end

section
/-! PROOFS. What an instruction that answers can leave, said once, and the obligations of `00_scope.md`. -/

namespace Sys2Proof.Machine

/-! ### What an instruction can leave -/

/-- What an instruction can do before its step ends: write registers, the flags that it names, and words of memory
that are inside `MEM`. -/
inductive Updates (s : State) : State → Prop
  | refl : Updates s s
  | setReg {u : State} (r : Label) (v : Word) : Updates s u → Updates s (u.setReg r v)
  | setCompared {u : State} (d : Int) : Updates s u → Updates s (u.setCompared d)
  | setRanged {u : State} (e : Int) : Updates s u → Updates s (u.setRanged e)
  | setDivided {u : State} (b : Int) : Updates s u → Updates s (u.setDivided b)
  | putWord {u : State} (a v : Word) : u.firstUnmapped a = none → Updates s u → Updates s (u.putWord a v)

/-- Instructions write `pc`, the end of the run and the parameters nowhere but where the step ends, if at all. -/
theorem Updates.pc_ended_cfg {s u : State} (h : Updates s u) : u.pc = s.pc ∧ u.ended = s.ended ∧ u.cfg = s.cfg := by
  induction h with
  | refl => exact ⟨rfl, rfl, rfl⟩
  | setReg _ _ _ ih | setCompared _ _ ih | setRanged _ _ ih | setDivided _ _ ih | putWord _ _ _ _ ih => exact ih

/-- What `pc` advances by over `i`: `LEN_LONG` with a constant, `LEN_SHORT` without (R24, R114). -/
def State.lenOf (s : State) (i : Instr) : Word := if i.const?.isSome then s.cfg.lenLong else s.cfg.lenShort

/-- The three ways in which an instruction that answers ends its step (R114, R115, R116). -/
inductive Ends (i : Instr) (s : State) : State → Prop
  | trap (v : Verdict) : v ≠ .defined → i.const? = none → Ends i s (s.conclude v (s.pc + s.cfg.lenShort))
  | jump (target : Word) : IsJump i →
      Ends i s (s.conclude .defined (if s.cfg.jumpAddsLen then target + s.lenOf i else target))
  | advance {u : State} : Updates s u → Ends i s (u.conclude .defined (u.pc + s.lenOf i))

section
variable {i : Instr} {s t u : State}

theorem Ends.of_trap {v : Verdict} (hv : v ≠ .defined) (hk : i.const? = none) (h : s.trap v = .next t) :
    Ends i s t := by
  rw [(trap_eq_next_iff s).1 h]
  exact .trap v hv hk

theorem Ends.of_jump {target : Word} (hi : IsJump i) (h : s.jump (s.lenOf i) target = .next t) : Ends i s t := by
  rw [(jump_eq_next_iff s).1 h]
  exact .jump target hi

theorem Ends.of_advance (hu : Updates s u) (h : u.advance (s.lenOf i) = .next t) : Ends i s t := by
  rw [(advance_eq_next_iff u).1 h]
  exact .advance hu

/-- A conditional jump is taken or advances. -/
theorem Ends.of_jump_or_advance {c : Bool} {target : Word} (hi : IsJump i)
    (h : (if c then s.jump (s.lenOf i) target else s.advance (s.lenOf i)) = .next t) : Ends i s t := by
  cases c with
  | true => exact .of_jump hi h
  | false => exact .of_advance .refl h

/-- A store that answers has put its word into `MEM`. -/
theorem Ends.of_store {a v : Word}
    (h : (orFault (s.memWrite a v) fun u => u.advance (s.lenOf i)) = .next t) : Ends i s t := by
  obtain ⟨u, hu, ht⟩ := orFault_eq_next_iff.1 h
  obtain ⟨ha, rfl⟩ := (memWrite_ok_iff s).1 hu
  exact .of_advance (.putWord a v ha .refl) ht

/-- A load that answers has written one register. -/
theorem Ends.of_load {a : Word} {x : Label}
    (h : (orFault (s.memRead a) fun v => (s.setReg x v).advance (s.lenOf i)) = .next t) : Ends i s t := by
  obtain ⟨v, -, ht⟩ := orFault_eq_next_iff.1 h
  exact .of_advance (.setReg x v .refl) ht

/-- What any instruction that answers leaves. -/
theorem exec_ends (h : exec i s = .next t) : Ends i s t := by
  cases i with
  | invalidP1 | invalidP2 | invalidP3 | invalidP4 => exact .of_trap (v := .invalidZero) (by decide) rfl h
  | decoderError => exact .of_trap (v := .invalidNextInstrPage) (by decide) rfl h
  | reservedP1Op7 | reservedP1Op8 | reservedP1Op9 | reservedP1OpA | reservedP1OpB | reservedP1OpC | reservedP1OpD
  | reservedP1OpE | reservedP2OpB | reservedP2OpC | reservedP2OpD | reservedP2OpE | reservedP3OpD | reservedP3OpE
  | reservedP4Op6 | reservedP4Op7 | reservedP4Op8 | reservedP4Op9 | reservedP4OpA | reservedP4OpB | reservedP4OpC
  | reservedP4OpD | reservedP4OpE => exact .of_trap (v := .invalidReserved) (by decide) rfl h
  | nop => exact .of_advance .refl h
  | addr | subr | fixmulr => exact .of_advance (.setRanged _ (.setReg _ _ .refl)) h
  | mulr => exact .of_advance (.setReg _ _ (.setReg _ _ .refl)) h
  | divr | fixdivr => exact .of_advance (.setDivided _ (.setReg _ _ .refl)) h
  | cmpr | cmpc => exact .of_advance (.setCompared _ .refl) h
  | movr | lshiftr | ashiftr | rollr | andr | orr | xorr | notr | movc | lshiftc | ashiftc | rollc | andc | orc
  | xorc => exact .of_advance (.setReg _ _ .refl) h
  | writer | writec => exact .of_store h
  | readr => exact .of_load h
  | readc x k =>
    change execReadc x k s = _ at h
    unfold execReadc at h
    split at h
    · exact .of_load h
    · exact .of_advance (.setReg _ _ .refl) h
  | jmpr x => exact .of_jump (.inl ⟨x, rfl⟩) h
  | jmp k => exact .of_jump (.inr ⟨k, .inl rfl⟩) h
  | je k => exact .of_jump_or_advance (.inr ⟨k, .inr (.inl rfl)⟩) h
  | jg k => exact .of_jump_or_advance (.inr ⟨k, .inr (.inr (.inl rfl))⟩) h
  | jl k => exact .of_jump_or_advance (.inr ⟨k, .inr (.inr (.inr rfl))⟩) h

theorem Ends.cfg_eq (h : Ends i s t) : t.cfg = s.cfg := by
  cases h with
  | trap | jump => rfl
  | advance hu =>
    obtain ⟨-, -, hcfg⟩ := hu.pc_ended_cfg
    exact hcfg

theorem Ends.pc_eq (h : Ends i s t) (hi : ¬ IsJump i) : t.pc = s.pc + s.lenOf i := by
  cases h with
  | trap v _ hk => simp [State.lenOf, hk]
  | jump _ hj => exact absurd hj hi
  | advance hu =>
    obtain ⟨hpc, -, -⟩ := hu.pc_ended_cfg
    rw [conclude_pc, hpc]

end

/-! ### The frame of an instruction that stores nothing -/

section
variable {s u : State} {written : List Label}

/-- The end of a defined instruction keeps the frame of what went before it. -/
theorem storesNothing_conclude (hregs : RegsKept s u written) (hmem : u.mem = s.mem) (hended : u.ended = s.ended)
    (hcfg : u.cfg = s.cfg) (p : Word) : StoresNothing s (u.conclude .defined p) written := by
  have hbytes : SameMem s u := fun a => by simp [State.byteAt, hmem]
  exact ⟨hregs, hbytes, by simp [DefinedEnd, hended, hcfg]⟩

theorem regsKept_setReg (s : State) (x : Label) (v : Word) : RegsKept s (s.setReg x v) [x] :=
  fun r hr => reg_setReg_ne s v (by simpa using hr)

end

/-! ### Division -/

/-- The quotient rounded toward zero, as sign and magnitude (R12). -/
theorem tdiv_eq_sign_mul_natAbs (a b : Int) : tdiv a b = a.sign * b.sign * (a.natAbs / b.natAbs : Nat) := by
  have key (m n : Nat) : (m : Int).sign * (n : Int).sign * (m / n : Int) = m / n := by
    rcases m.eq_zero_or_pos with rfl | hm
    · simp
    · rcases n.eq_zero_or_pos with rfl | hn
      · simp
      · rw [Int.sign_eq_one_of_pos (by omega), Int.sign_eq_one_of_pos (by omega), one_mul, one_mul]
  unfold tdiv
  obtain ⟨m, rfl | rfl⟩ := a.eq_nat_or_neg <;> obtain ⟨n, rfl | rfl⟩ := b.eq_nat_or_neg <;>
    simp [key, Int.tdiv_neg, Int.neg_tdiv]

/-- What divr and fixdivr leave when they store `v`: `v` in `X`, zero_div from the divisor `b`, and nothing else. -/
theorem division_leaves {s t : State} {x : Label} {v p : Word} {b : Int}
    (ht : t = ((s.setReg x v).setDivided b).conclude .defined p) :
    t.reg x = v ∧ (t.flags.zeroDiv = true ↔ b = 0) ∧
      StoresNothing s t [x] ∧ CompareFlagsKept s t ∧ RangeFlagsKept s t := by
  subst ht
  refine ⟨by simp, by simp, ?_, ⟨rfl, rfl, rfl⟩, ⟨rfl, rfl⟩⟩
  exact storesNothing_conclude (regsKept_setReg s x v) rfl rfl rfl p

/-- A divisor that is not zero gives the quotient, a zero divisor the chain of cases (R134, R136, D11). -/
theorem quotientOr_eq (zeroByZero : Word) (a b q : Int) :
    quotientOr zeroByZero a b q =
      (if b ≠ 0 then BitVec.ofInt 32 q
      else if 0 < a then 0x7FFFFFFF else if a < 0 then 0x80000000 else zeroByZero) := by
  rw [quotientOr, ite_not]
  rfl

/-! ### Accesses to memory -/

/-- The bytes of a word in ascending order, by their offset (R11). -/
@[simp] theorem getElem_wordAddrs (a : Word) {n : Nat} (hn : n < (wordAddrs a).length) :
    (wordAddrs a)[n] = a + BitVec.ofNat 32 n := by
  match n, hn with
  | 0, _ => simp [wordAddrs]
  | 1, _ | 2, _ | 3, _ => rfl

/-- The address that a `MemoryFault` names is the first outside `MEM` (R11). -/
theorem firstUnmapped_eq_some_iff {s : State} {a b : Word} : s.firstUnmapped a = some b ↔ FirstOutside s a b := by
  unfold State.firstUnmapped FirstOutside
  rw [List.find?_eq_some_iff_getElem]
  constructor
  · rintro ⟨hb, n, hn, hnb, hbefore⟩
    refine ⟨n, hn, hnb.symm.trans (getElem_wordAddrs a hn), by simpa using hb, fun m hm => ?_⟩
    simpa using hbefore m hm
  · rintro ⟨n, hn, hnb, hb, hbefore⟩
    refine ⟨by simpa using hb, n, hn, (getElem_wordAddrs a hn).trans hnb.symm, fun m hm => ?_⟩
    simpa using hbefore m hm

/-- A store to a word that is not all in `MEM` abandons the step (R11, R113). -/
theorem orFault_memWrite_of_firstOutside {s : State} {a b : Word} (h : FirstOutside s a b) (v : Word)
    (k : State → Result) :
    orFault (s.memWrite a v) k = .fault (.memoryFault b) :=
  orFault_eq_fault_iff.2 (.inl ((memWrite_error_iff s).2 ⟨b, firstUnmapped_eq_some_iff.2 h, rfl⟩))

/-- A load of a word that is not all in `MEM` abandons the step (R11, R113). -/
theorem orFault_memRead_of_firstOutside {s : State} {a b : Word} (h : FirstOutside s a b) (k : Word → Result) :
    orFault (s.memRead a) k = .fault (.memoryFault b) :=
  orFault_eq_fault_iff.2 (.inl ((memRead_error_iff s).2 ⟨b, firstUnmapped_eq_some_iff.2 h, rfl⟩))

/-- The `MEM` that R6 takes holds every address. -/
theorem allMapped_of_cfg_taken {s : State} (h : s.cfg = Config.taken) : s.AllMapped := by
  intro a
  simpa [State.mapped, Config.inMem, h, Config.taken] using a.isLt

/-! ### The obligations -/

/-- Settles O19, from the three ways in which a step ends. -/
theorem stepKeepsParameters : Obligations.StepKeepsParameters := by
  intro s t h
  obtain ⟨-, i, -, hexec⟩ := (step_eq_next_iff s).1 h
  exact (exec_ends hexec).cfg_eq

/-- Settles O27: of the three ways in which a step ends only a taken jump does not add the length. -/
theorem pcAdvancesByLength : Obligations.PcAdvancesByLength := by
  intro i s t h hi
  have hpc : t.pc.toNat = (s.pc.toNat + (s.lenOf i).toNat) % 2 ^ 32 := by
    rw [(exec_ends h).pc_eq hi, BitVec.toNat_add]
  refine ⟨?_, fun hshort hlong => ?_⟩
  · rw [hpc, State.lenOf, apply_ite BitVec.toNat]
  · rw [hpc, State.lenOf, Instr.lengthBytes, hshort, hlong, apply_ite BitVec.toNat]
    rfl

/-- Settles O37: the frame of a division, and its quotient as sign and magnitude. -/
theorem divrDividesTowardZero : Obligations.DivrDividesTowardZero := by
  intro s x y z
  obtain ⟨hx, hrest⟩ := division_leaves (s := s) (x := x) (b := s32 (s.reg z)) rfl
  refine ⟨_, rfl, hx.trans ?_, hrest⟩
  rw [quotientOr_eq, tdiv_eq_sign_mul_natAbs]
  rfl

/-- Settles O39: the dividend `a * 2^16` has the sign of `a`. -/
theorem fixdivrDividesTowardZero : Obligations.FixdivrDividesTowardZero := by
  intro s x y z
  have hq : tdiv (s32 (s.reg y) * 2 ^ 16) (s32 (s.reg z)) =
      (s.reg y).toInt.sign * (s.reg z).toInt.sign *
        ((s.reg y).toInt.natAbs * 2 ^ 16 / (s.reg z).toInt.natAbs : Nat) := by
    rw [tdiv_eq_sign_mul_natAbs, Int.sign_mul, Int.natAbs_mul,
      Int.sign_eq_one_of_pos (by decide : (0 : Int) < 2 ^ 16), mul_one]
    rfl
  obtain ⟨hx, hrest⟩ := division_leaves (s := s) (x := x) (b := s32 (s.reg z)) rfl
  refine ⟨_, rfl, hx.trans ?_, hrest⟩
  rw [quotientOr_eq, hq]
  rfl

/-- Settles O7: a store that answers is `putWord`, whose bytes, frame and word read back are laws of their own. -/
theorem storedWordReadsBack : Obligations.StoredWordReadsBack := by
  intro s t a v h
  obtain ⟨ha, rfl⟩ := (memWrite_ok_iff s).1 h
  obtain ⟨h0, h1, h2, h3⟩ := byteAt_putWord s a v
  refine ⟨h0, h1, h2, h3, fun b n0 n1 n2 n3 => ?_, ?_⟩
  · have hb : b ∉ wordAddrs a := by simp only [wordAddrs, List.mem_cons, List.not_mem_nil]; tauto
    exact byteAt_putWord_of_notMem s hb
  · exact (memRead_ok_iff _).2 ⟨ha, (wordAt_putWord s a v).symm⟩

/-- Settles O42: the address that the access names is the first outside `MEM`. -/
theorem dataAccessFaultsAtFirstOutside : Obligations.DataAccessFaultsAtFirstOutside := by
  intro s x y k b
  refine ⟨fun h => ⟨?_, ?_⟩, fun h => ?_, fun hload h => ?_⟩
  · exact orFault_memWrite_of_firstOutside h _ _
  · exact orFault_memRead_of_firstOutside h _
  · exact orFault_memWrite_of_firstOutside h _ _
  · exact (if_pos hload).trans (orFault_memRead_of_firstOutside h _)

/-- Settles O57: the parameters by computation, and `MEM` by its one region. -/
theorem resetTakesTheSpecsParameters : Obligations.ResetTakesTheSpecsParameters :=
  ⟨rfl, rfl, rfl, rfl, rfl, rfl, rfl, rfl, allMapped_of_cfg_taken rfl⟩

end Sys2Proof.Machine
end

section
/-! PROOFS. What an instruction writes before its step ends, by the instruction's own name; the flags that no
instruction reads; and the obligations of `10_state.md`. -/

namespace Sys2Proof.Machine

/-! ### Memory and the end of the run -/

/-- Every way in which a step ends is the same operation after the instruction's own writes. -/
theorem Ends.concludes {i : Instr} {s t : State} (h : Ends i s t) :
    ∃ u v p, Updates s u ∧ t = u.conclude v p := by
  cases h with
  | trap v => exact ⟨s, v, _, .refl, rfl⟩
  | jump => exact ⟨s, .defined, _, .refl, rfl⟩
  | advance hu => exact ⟨_, .defined, _, hu, rfl⟩

/-- No instruction brings memory out of its canonical form or out of `MEM`. -/
theorem Updates.mem_wf_inMap {s u : State} (h : Updates s u) (hwf : s.mem.wf) (hmap : s.memInMap = true) :
    u.mem.wf ∧ u.memInMap = true := by
  induction h with
  | refl => exact ⟨hwf, hmap⟩
  | setReg _ _ _ ih | setCompared _ _ ih | setRanged _ _ ih | setDivided _ _ ih => exact ih
  | @putWord u a v ha _ ih =>
    obtain ⟨huwf, humap⟩ := ih
    exact ⟨wf_putWord u huwf a v, memInMap_memWrite u humap ((memWrite_ok_iff u).2 ⟨ha, rfl⟩)⟩

/-- A run that has not ended ends with the flag of its trap, or goes on as R118 allows. -/
theorem endedAgrees_conclude {u : State} (h : u.ended = none) (v : Verdict) (p : Word) :
    (u.conclude v p).endedAgrees = true := by
  cases hc : u.cfg.continueAfterTrap <;> cases v <;>
    simp [State.endedAgrees, State.endedAfter, Verdict.stopReason, h, hc]

theorem endedAgrees_launch (l : Launch) : (State.launch l).endedAgrees = true := by
  simp [State.endedAgrees, State.launch]

/-- Memory that the host placed inside `MEM` lists addresses in `MEM` alone. -/
theorem memInMap_launch {l : Launch} (h : ∀ c ∈ l.image, l.config.inMem c.1.toNat = true) :
    (State.launch l).memInMap = true := by
  refine List.all_eq_true.2 fun c hc => ?_
  rcases Memory.mem_place hc with hc | ⟨d, hd, rfl⟩
  · exact absurd hc List.not_mem_nil
  · exact h d hd

/-! ### What an instruction writes by name -/

/-- The instructions that name equal, greater_than and less_than (R154, R186). -/
def NamesCompareFlags (i : Instr) : Prop := (∃ x y, i = .cmpr x y) ∨ ∃ x k, i = .cmpc x k

/-- The instructions that name overflow and underflow (R131, R132, R135). -/
def NamesRangeFlags (i : Instr) : Prop := ∃ x y z, i = .addr x y z ∨ i = .subr x y z ∨ i = .fixmulr x y z

/-- The instructions that name zero_div (R134, R136). -/
def NamesZeroDiv (i : Instr) : Prop := ∃ x y z, i = .divr x y z ∨ i = .fixdivr x y z

/-- `Updates` with the instruction's leave for each write: the registers of `writesTo` and the flags that it names. -/
inductive NamedUpdates (i : Instr) (s : State) : State → Prop
  | refl : NamedUpdates i s s
  | setReg {u : State} {r : Label} (v : Word) : r ∈ writesTo i → NamedUpdates i s u → NamedUpdates i s (u.setReg r v)
  | setCompared {u : State} (d : Int) : NamesCompareFlags i → NamedUpdates i s u → NamedUpdates i s (u.setCompared d)
  | setRanged {u : State} (e : Int) : NamesRangeFlags i → NamedUpdates i s u → NamedUpdates i s (u.setRanged e)
  | setDivided {u : State} (b : Int) : NamesZeroDiv i → NamedUpdates i s u → NamedUpdates i s (u.setDivided b)
  | putWord {u : State} (a v : Word) : NamedUpdates i s u → NamedUpdates i s (u.putWord a v)

/-- What an instruction that answers leaves: its named writes, and then the end of the step. -/
inductive Leaves (i : Instr) (s : State) : State → Prop
  | conclude {u : State} (v : Verdict) (p : Word) : NamedUpdates i s u → Leaves i s (u.conclude v p)

section
variable {i : Instr} {s t u : State}

theorem Leaves.of_trap {v : Verdict} (h : s.trap v = .next t) : Leaves i s t := by
  rw [(trap_eq_next_iff s).1 h]
  exact .conclude _ _ .refl

theorem Leaves.of_jump {len target : Word} (h : s.jump len target = .next t) : Leaves i s t := by
  rw [(jump_eq_next_iff s).1 h]
  exact .conclude _ _ .refl

theorem Leaves.of_advance {len : Word} (hu : NamedUpdates i s u) (h : u.advance len = .next t) : Leaves i s t := by
  rw [(advance_eq_next_iff u).1 h]
  exact .conclude _ _ hu

/-- An instruction that writes one register and no flag. -/
theorem Leaves.of_setReg {len v : Word} {x : Label} (hx : x ∈ writesTo i)
    (h : (s.setReg x v).advance len = .next t) : Leaves i s t :=
  .of_advance (.setReg v hx .refl) h

theorem Leaves.of_jump_or_advance {c : Bool} {len target : Word}
    (h : (if c then s.jump len target else s.advance len) = .next t) : Leaves i s t := by
  cases c with
  | true => exact .of_jump h
  | false => exact .of_advance .refl h

theorem Leaves.of_store {a v len : Word} (h : (orFault (s.memWrite a v) fun u => u.advance len) = .next t) :
    Leaves i s t := by
  obtain ⟨u, hu, ht⟩ := orFault_eq_next_iff.1 h
  obtain ⟨-, rfl⟩ := (memWrite_ok_iff s).1 hu
  exact .of_advance (.putWord a v .refl) ht

theorem Leaves.of_load {a len : Word} {x : Label} (hx : x ∈ writesTo i)
    (h : (orFault (s.memRead a) fun v => (s.setReg x v).advance len) = .next t) : Leaves i s t := by
  obtain ⟨v, -, ht⟩ := orFault_eq_next_iff.1 h
  exact .of_setReg hx ht

/-- No instruction writes a register outside `writesTo` or a flag that it does not name. -/
theorem exec_leaves (h : exec i s = .next t) : Leaves i s t := by
  cases i with
  | invalidP1 | invalidP2 | invalidP3 | invalidP4 | decoderError | reservedP1Op7 | reservedP1Op8 | reservedP1Op9
  | reservedP1OpA | reservedP1OpB | reservedP1OpC | reservedP1OpD | reservedP1OpE | reservedP2OpB | reservedP2OpC
  | reservedP2OpD | reservedP2OpE | reservedP3OpD | reservedP3OpE | reservedP4Op6 | reservedP4Op7 | reservedP4Op8
  | reservedP4Op9 | reservedP4OpA | reservedP4OpB | reservedP4OpC | reservedP4OpD | reservedP4OpE =>
    exact .of_trap h
  | nop => exact .of_advance .refl h
  | addr x y z => exact .of_advance (.setRanged _ ⟨x, y, z, .inl rfl⟩ (.setReg _ (.head _) .refl)) h
  | subr x y z => exact .of_advance (.setRanged _ ⟨x, y, z, .inr (.inl rfl)⟩ (.setReg _ (.head _) .refl)) h
  | fixmulr x y z => exact .of_advance (.setRanged _ ⟨x, y, z, .inr (.inr rfl)⟩ (.setReg _ (.head _) .refl)) h
  | mulr x y z => exact .of_advance (.setReg _ (.tail y (.head _)) (.setReg _ (.head _) .refl)) h
  | divr x y z => exact .of_advance (.setDivided _ ⟨x, y, z, .inl rfl⟩ (.setReg _ (.head _) .refl)) h
  | fixdivr x y z => exact .of_advance (.setDivided _ ⟨x, y, z, .inr rfl⟩ (.setReg _ (.head _) .refl)) h
  | cmpr x y => exact .of_advance (.setCompared _ (.inl ⟨x, y, rfl⟩) .refl) h
  | cmpc x k => exact .of_advance (.setCompared _ (.inr ⟨x, k, rfl⟩) .refl) h
  | movr | lshiftr | ashiftr | rollr | andr | orr | xorr | notr | movc | lshiftc | ashiftc | rollc | andc | orc
  | xorc => exact .of_setReg (.head _) h
  | writer | writec => exact .of_store h
  | readr => exact .of_load (.head _) h
  | readc x k =>
    change execReadc x k s = _ at h
    unfold execReadc at h
    split at h
    · exact .of_load (.head _) h
    · exact .of_setReg (.head _) h
  | jmpr | jmp => exact .of_jump h
  | je | jg | jl => exact .of_jump_or_advance h

theorem NamedUpdates.regsKept (h : NamedUpdates i s u) : RegsKept s u (writesTo i) := by
  intro q hq
  induction h with
  | refl => rfl
  | setReg v hr _ ih => rw [reg_setReg_ne _ v (ne_of_mem_of_not_mem hr hq).symm, ih]
  | setCompared _ _ _ ih | setRanged _ _ _ ih | setDivided _ _ _ ih | putWord _ _ _ ih => exact ih

theorem NamedUpdates.compareFlagsKept (h : NamedUpdates i s u) (hi : ¬ NamesCompareFlags i) :
    CompareFlagsKept s u := by
  induction h with
  | refl => exact ⟨rfl, rfl, rfl⟩
  | setCompared _ hn => exact absurd hn hi
  | setReg _ _ _ ih | setRanged _ _ _ ih | setDivided _ _ _ ih | putWord _ _ _ ih => exact ih

theorem NamedUpdates.rangeFlagsKept (h : NamedUpdates i s u) (hi : ¬ NamesRangeFlags i) : RangeFlagsKept s u := by
  induction h with
  | refl => exact ⟨rfl, rfl⟩
  | setRanged _ hn => exact absurd hn hi
  | setReg _ _ _ ih | setCompared _ _ _ ih | setDivided _ _ _ ih | putWord _ _ _ ih => exact ih

theorem NamedUpdates.zeroDivKept (h : NamedUpdates i s u) (hi : ¬ NamesZeroDiv i) : ZeroDivKept s u := by
  induction h with
  | refl => rfl
  | setDivided _ hn => exact absurd hn hi
  | setReg _ _ _ ih | setCompared _ _ _ ih | setRanged _ _ _ ih | putWord _ _ _ ih => exact ih

end

/-! ### The flags that no instruction reads -/

section
variable (s : State)

/-- However a step ends, the unread flags before it do not show after it. -/
theorem withoutUnreadFlags_conclude (v : Verdict) (p : Word) :
    withoutUnreadFlags (.next (s.unreadFlagsCleared.conclude v p)) = withoutUnreadFlags (.next (s.conclude v p)) := rfl

theorem withoutUnreadFlags_jump_or_advance (c : Bool) (len target : Word) :
    withoutUnreadFlags
        (if c then s.unreadFlagsCleared.jump len target else s.unreadFlagsCleared.advance len) =
      withoutUnreadFlags (if c then s.jump len target else s.advance len) := by
  cases c with
  | true => exact withoutUnreadFlags_conclude s .defined _
  | false => exact withoutUnreadFlags_conclude s .defined _

/-- Whether a store faults, and what it stores, does not depend on flags. -/
theorem withoutUnreadFlags_store (a v len : Word) :
    withoutUnreadFlags (orFault (s.unreadFlagsCleared.memWrite a v) fun u => u.advance len) =
      withoutUnreadFlags (orFault (s.memWrite a v) fun u => u.advance len) := by
  have hmem : s.unreadFlagsCleared.firstUnmapped a = s.firstUnmapped a := rfl
  unfold State.memWrite
  rw [hmem]
  cases s.firstUnmapped a with
  | some b => rfl
  | none => exact withoutUnreadFlags_conclude (s.putWord a v) .defined _

/-- Whether a load faults, and what it loads, does not depend on flags. -/
theorem withoutUnreadFlags_load (a len : Word) (x : Label) :
    withoutUnreadFlags
        (orFault (s.unreadFlagsCleared.memRead a) fun v => (s.unreadFlagsCleared.setReg x v).advance len) =
      withoutUnreadFlags (orFault (s.memRead a) fun v => (s.setReg x v).advance len) := by
  have hmem : s.unreadFlagsCleared.memRead a = s.memRead a := rfl
  rw [hmem]
  cases s.memRead a with
  | error f => rfl
  | ok v => exact withoutUnreadFlags_conclude (s.setReg x v) .defined _

/-- Flags cleared before an instruction do not show after it. Where the instruction neither tests a flag nor accesses
memory, both sides compute to one state, since each flag written is not seen or comes from the operands. -/
theorem withoutUnreadFlags_exec (i : Instr) :
    withoutUnreadFlags (exec i s.unreadFlagsCleared) = withoutUnreadFlags (exec i s) := by
  cases i with
  | writer x y => exact withoutUnreadFlags_store s (s.reg y) (s.reg x) s.cfg.lenShort
  | writec x k => exact withoutUnreadFlags_store s k (s.reg x) s.cfg.lenLong
  | readr x y => exact withoutUnreadFlags_load s (s.reg y) s.cfg.lenShort x
  | readc x k =>
    have hread : s.unreadFlagsCleared.cfg.readcIsLoad = s.cfg.readcIsLoad := rfl
    change withoutUnreadFlags (execReadc x k _) = withoutUnreadFlags (execReadc x k s)
    unfold execReadc
    rw [hread]
    split
    · exact withoutUnreadFlags_load s k s.cfg.lenLong x
    · exact withoutUnreadFlags_conclude (s.setReg x k) .defined _
  | je k => exact withoutUnreadFlags_jump_or_advance s s.flags.equal s.cfg.lenLong k
  | jg k => exact withoutUnreadFlags_jump_or_advance s s.flags.greaterThan s.cfg.lenLong k
  | jl k => exact withoutUnreadFlags_jump_or_advance s s.flags.lessThan s.cfg.lenLong k
  | _ => rfl

/-- A step reads the end of the run, and the fetch memory, `pc` and the parameters: none of these is a flag. -/
theorem withoutUnreadFlags_step : withoutUnreadFlags (step s.unreadFlagsCleared) = withoutUnreadFlags (step s) := by
  have hended : s.unreadFlagsCleared.ended = s.ended := rfl
  have hfetch : s.unreadFlagsCleared.fetch = s.fetch := rfl
  unfold step
  rw [hended, hfetch]
  cases s.ended with
  | some r => rfl
  | none =>
    cases s.fetch with
    | error f => rfl
    | ok i => exact withoutUnreadFlags_exec s i

end

/-! ### The FLAGS word -/

/-- The flag at source bit `k`: the eight defined flags by name, and then the reserved bits (R26). -/
def Flags.sourceBit (f : Flags) (k : Nat) : Bool :=
  ([f.equal, f.greaterThan, f.lessThan, f.reservedInstruction, f.invalidInstruction, f.zeroDiv, f.overflow,
    f.underflow][k]?).getD (f.reserved.getLsbD (31 - k))

section
variable (f : Flags) {b : Nat}

theorem sourceBit_of_reserved {k : Nat} (hk : 8 ≤ k) : f.sourceBit k = f.reserved.getLsbD (31 - k) := by
  rw [Flags.sourceBit, List.getElem?_eq_none hk, Option.getD_none]

@[simp] theorem getLsbD_flagMask (c : Bool) (mask : Word) (b : Nat) :
    (flagMask c mask).getLsbD b = (c && mask.getLsbD b) := by
  cases c <;> simp [flagMask]

/-- Under `msb0` the reserved bits are the low 24, where no mask of a defined flag has a 1. -/
theorem getLsbD_word_msb0 (hb : b < 32) : (f.word .msb0).getLsbD b = f.sourceBit (31 - b) := by
  simp only [Flags.word, BitVec.getLsbD_or, getLsbD_flagMask, BitVec.getLsbD_setWidth]
  by_cases h : b < 24
  · rw [sourceBit_of_reserved f (by omega), show 31 - (31 - b) = b by omega]
    interval_cases b <;> simp
  · interval_cases b <;> simp [Flags.sourceBit]

/-- Under `lsb0` the reserved bits are the upper 24, reversed. -/
theorem getLsbD_word_lsb0 (hb : b < 32) : (f.word .lsb0).getLsbD b = f.sourceBit b := by
  simp only [Flags.word, BitVec.getLsbD_or, getLsbD_flagMask, BitVec.getLsbD_shiftLeft, BitVec.getLsbD_setWidth,
    BitVec.getLsbD_reverse, BitVec.getMsbD]
  by_cases h : b < 8
  · interval_cases b <;> simp [Flags.sourceBit]
  · rw [sourceBit_of_reserved f (by omega)]
    interval_cases b <;> simp

end

/-! ### The obligations -/

/-- Settles O15: the instruction's writes keep memory canonical and in `MEM`, and the end of the step, which finds the
run not ended, makes the reserved bits 0 and the trap flags agree. -/
theorem stepKeepsInvariant : Obligations.StepKeepsInvariant := by
  rintro s t ⟨hwf, hmap, -, -⟩ h
  obtain ⟨hended, i, -, hexec⟩ := (step_eq_next_iff s).1 h
  obtain ⟨u, v, p, hu, rfl⟩ := (exec_ends hexec).concludes
  obtain ⟨huwf, humap⟩ := hu.mem_wf_inMap hwf hmap
  obtain ⟨-, hue, -⟩ := hu.pc_ended_cfg
  exact ⟨huwf, humap, rfl, endedAgrees_conclude (hue.trans hended) v p⟩

/-- Settles O17: memory is placed byte by byte, and the launch fixes the rest. -/
theorem launchHasInvariant : Obligations.LaunchHasInvariant :=
  fun l h => ⟨Memory.wf_place Memory.wf_nil l.image, memInMap_launch h, rfl, endedAgrees_launch l⟩

/-- Settles O24: every step ends with the handler, which clears the bits. -/
theorem reservedFlagBitsAreZero : Obligations.ReservedFlagBitsAreZero := by
  refine ⟨fun s t h => ?_, fun l => rfl⟩
  obtain ⟨-, i, -, hexec⟩ := (step_eq_next_iff s).1 h
  obtain ⟨u, v, p, -, rfl⟩ := (exec_ends hexec).concludes
  exact handled_reserved u.flags v

/-- Settles O25, from the instruction's named writes. -/
theorem registersChangeOnlyWhereWritten : Obligations.RegistersChangeOnlyWhereWritten := by
  intro i s t h
  obtain ⟨v, p, hu⟩ := exec_leaves h
  exact hu.regsKept

/-- Settles O26, from the instruction's named writes; the handler leaves the six flags alone. -/
theorem flagsChangeOnlyWhereNamed : Obligations.FlagsChangeOnlyWhereNamed := by
  intro i s t h
  obtain ⟨v, p, hu⟩ := exec_leaves h
  exact ⟨fun hr hc => hu.compareFlagsKept (not_or.2 ⟨hr, hc⟩), hu.rangeFlagsKept, hu.zeroDivKept⟩

/-- Settles O29: each of the two steps is seen as the step of the one state with those flags cleared. -/
theorem unreadFlagsDoNotInterfere : Obligations.UnreadFlagsDoNotInterfere := by
  intro s u h
  rw [← withoutUnreadFlags_step s, h, withoutUnreadFlags_step u]

/-- Settles O33: source bit `31 - b` is bit `b` of the one word and bit `31 - b` of the other. -/
theorem flagsWordLayout : Obligations.FlagsWordLayout := by
  intro f b hb
  have hmirror : 31 - (31 - b) = b := by omega
  refine ⟨?_, ?_⟩
  · rw [getLsbD_word_msb0 f hb, Flags.sourceBit, hmirror]
  · rw [getLsbD_word_lsb0 f hb, getLsbD_word_msb0 f (by omega), hmirror]

/-- Settles O16: the launch with nothing placed is a launch whose image lies in `MEM`. -/
theorem resetHasInvariant : Obligations.ResetHasInvariant :=
  launchHasInvariant Launch.blank fun _ hc => absurd hc List.not_mem_nil

/-- Settles O18: the registers and flags by computation, the bytes by what a read sees after bytes are placed. -/
theorem launchStateIsTheHosts : Obligations.LaunchStateIsTheHosts := by
  intro l
  refine ⟨fun _ => rfl, rfl, rfl, rfl, rfl, fun before after a v himage hafter => ?_, fun a ha => ?_⟩
  · change (Memory.place [] l.image).read a.toNat = v
    rw [himage]
    exact Memory.read_place_last [] before after v hafter
  · exact Memory.read_place_of_notMem [] l.image fun c hc e => ha c hc (BitVec.eq_of_toNat_eq e)

end Sys2Proof.Machine
end

section
/-! PROOFS. How an instruction uses memory, whatever it answers; what a step does by the state of `MEM` at `pc`; and the
obligations of `20_memory.md`. -/

namespace Sys2Proof

/-! ### Bytes and words as numbers -/

/-- Byte `n` of a word as a digit to the base 2^8 (R11). -/
theorem toNat_byteOf (v : Word) (n : Nat) : (byteOf v n).toNat = v.toNat / 2 ^ (8 * n) % 2 ^ 8 := by
  rw [byteOf, BitVec.extractLsb'_toNat, Nat.shiftRight_eq_div_pow]

/-- A word is little endian: the byte at the lowest address has the least weight (R52). -/
theorem toNat_wordOf (b0 b1 b2 b3 : Byte) :
    (wordOf b0 b1 b2 b3).toNat = b0.toNat + 2 ^ 8 * b1.toNat + 2 ^ 16 * b2.toNat + 2 ^ 24 * b3.toNat := by
  have append (n : Nat) (hi : BitVec n) (lo : Byte) : (hi ++ lo).toNat = hi.toNat * 2 ^ 8 + lo.toNat := by
    rw [BitVec.toNat_append, ← Nat.shiftLeft_add_eq_or_of_lt lo.isLt, Nat.shiftLeft_eq]
  rw [wordOf, append, append, append]
  omega

namespace Machine

/-! ### The addresses of a word -/

/-- The addresses of the word at `a` are those less than four bytes above it, modulo 2^32 (R11, R59). -/
theorem mem_wordAddrs_iff {a b : Word} : b ∈ wordAddrs a ↔ (b - a).toNat < 4 := by
  simp only [wordAddrs, List.mem_cons, List.not_mem_nil, or_false]
  constructor
  · rintro (rfl | rfl | rfl | rfl) <;> bv_omega
  · intro h
    bv_omega

/-- The word four bytes up shares no byte with the word at `a`. -/
theorem notMem_wordAddrs_of_mem_add_four {a c : Word} (hc : c ∈ wordAddrs (a + 4)) : c ∉ wordAddrs a := by
  rw [mem_wordAddrs_iff] at hc ⊢
  bv_omega

section
variable {s t : State} {i : Instr} {a b p : Word} {x : Label}

/-- A word is in `MEM` exactly when no address of it is outside (R58). -/
theorem wordInMem_iff : WordInMem s a ↔ s.firstUnmapped a = none := by
  rw [firstUnmapped_eq_none_iff]
  simp [WordInMem, wordAddrs]

theorem mapped_congr (h : t.cfg = s.cfg) : t.mapped = s.mapped := by
  funext a
  rw [State.mapped, State.mapped, h]

theorem wordInMem_congr (h : t.cfg = s.cfg) (a : Word) : WordInMem t a ↔ WordInMem s a := by
  rw [WordInMem, WordInMem, mapped_congr h]

theorem firstOutside_congr (h : t.cfg = s.cfg) (a b : Word) : FirstOutside t a b ↔ FirstOutside s a b := by
  rw [FirstOutside, FirstOutside, mapped_congr h]

theorem unmapped_of_firstOutside (h : FirstOutside s a b) : s.mapped b = false := by
  obtain ⟨-, hb⟩ := firstUnmapped_eq_some s (firstUnmapped_eq_some_iff.2 h)
  exact hb

/-! ### What an instruction does with memory -/

/-- `i` is the store of register `x` at `p`: writer with its address in a register, or writec (R151, R182). -/
def StoresTo (i : Instr) (s : State) (x : Label) (p : Word) : Prop :=
  (∃ y, i = .writer x y ∧ p = s.reg y) ∨ i = .writec x p

/-- What an instruction answers, by its use of memory: it answers without an access, or makes one access of a word and
abandons the step where that faults (R57, R113, D18). -/
inductive MemoryUse (i : Instr) (s : State) : Result → Prop
  | noAccess {u : State} : u.mem = s.mem → MemoryUse i s (.next u)
  | store {x : Label} {p : Word} (len : Word) : StoresTo i s x p →
      MemoryUse i s (orFault (s.memWrite p (s.reg x)) fun u => u.advance len)
  | load (a : Word) (x : Label) (len : Word) :
      MemoryUse i s (orFault (s.memRead a) fun v => (s.setReg x v).advance len)

theorem MemoryUse.of_jump_or_advance (c : Bool) (len target : Word) :
    MemoryUse i s (if c then s.jump len target else s.advance len) := by
  cases c with
  | true => exact .noAccess rfl
  | false => exact .noAccess rfl

/-- writer and writec store; readr, and readc under `READC_IS_LOAD`, load; no other instruction accesses memory. -/
theorem exec_memoryUse (i : Instr) (s : State) : MemoryUse i s (exec i s) := by
  cases i with
  | writer x y => exact .store s.cfg.lenShort (.inl ⟨y, rfl, rfl⟩)
  | writec x k => exact .store s.cfg.lenLong (.inr rfl)
  | readr x y => exact .load (s.reg y) x s.cfg.lenShort
  | readc x k =>
    change MemoryUse _ s (execReadc x k s)
    unfold execReadc
    split
    · exact .load k x s.cfg.lenLong
    · exact .noAccess rfl
  | je k => exact .of_jump_or_advance s.flags.equal s.cfg.lenLong k
  | jg k => exact .of_jump_or_advance s.flags.greaterThan s.cfg.lenLong k
  | jl k => exact .of_jump_or_advance s.flags.lessThan s.cfg.lenLong k
  | _ => exact .noAccess rfl

/-- A store that answers has put its word into `MEM` and ended its step as a defined instruction. -/
theorem store_eq_next {v len : Word} (h : (orFault (s.memWrite p v) fun u => u.advance len) = .next t) :
    s.firstUnmapped p = none ∧ t = (s.putWord p v).conclude .defined (s.pc + len) := by
  obtain ⟨u, hu, ht⟩ := orFault_eq_next_iff.1 h
  obtain ⟨hp, rfl⟩ := (memWrite_ok_iff s).1 hu
  exact ⟨hp, (advance_eq_next_iff _).1 ht⟩

/-- What writer and writec leave in memory: their word at their address, all of it in `MEM`, and every word that shares
no byte with it as before. -/
theorem exec_storesTo_leaves (hi : StoresTo i s x p) (h : exec i s = .next t) :
    WordInMem s p ∧ t.cfg = s.cfg ∧ t.wordAt p = s.reg x ∧
      ∀ b, (∀ c ∈ wordAddrs b, c ∉ wordAddrs p) → t.wordAt b = s.wordAt b := by
  have hstore : ∃ len, (orFault (s.memWrite p (s.reg x)) fun u => u.advance len) = .next t := by
    obtain ⟨y, rfl, rfl⟩ | rfl := hi
    · exact ⟨s.cfg.lenShort, h⟩
    · exact ⟨s.cfg.lenLong, h⟩
  obtain ⟨len, hlen⟩ := hstore
  obtain ⟨hp, rfl⟩ := store_eq_next hlen
  exact ⟨wordInMem_iff.2 hp, rfl, wordAt_putWord s p (s.reg x), fun _ => wordAt_putWord_of_disjoint s⟩

/-- An instruction that changes a byte is a store to a word that holds the byte. -/
theorem MemoryUse.storesTo_of_byteAt_ne {r : Result} (hr : MemoryUse i s r) (h : r = .next t)
    (ha : t.byteAt a ≠ s.byteAt a) : ∃ x p, StoresTo i s x p ∧ a ∈ wordAddrs p := by
  cases hr with
  | noAccess hmem =>
    cases h
    exact absurd (congrArg (·.read a.toNat) hmem) ha
  | @store x p len hi =>
    obtain ⟨-, rfl⟩ := store_eq_next h
    exact ⟨x, p, hi, by_contra fun hn => ha (byteAt_putWord_of_notMem s hn)⟩
  | load =>
    obtain ⟨v, -, hv⟩ := orFault_eq_next_iff.1 h
    cases hv
    exact absurd rfl ha

/-- An instruction faults only by its one access, at an address that is not in `MEM` (R58). -/
theorem MemoryUse.fault_unmapped {r : Result} {f : Fault} (hr : MemoryUse i s r) (h : r = .fault f) :
    ∃ a, f = .memoryFault a ∧ s.mapped a = false := by
  cases hr with
  | noAccess => cases h
  | store =>
    obtain hf | ⟨u, -, hu⟩ := orFault_eq_fault_iff.1 h
    · obtain ⟨b, hb, rfl⟩ := (memWrite_error_iff s).1 hf
      exact ⟨b, rfl, (firstUnmapped_eq_some s hb).2⟩
    · cases hu
  | load =>
    obtain hf | ⟨v, -, hv⟩ := orFault_eq_fault_iff.1 h
    · obtain ⟨b, hb, rfl⟩ := (memRead_error_iff s).1 hf
      exact ⟨b, rfl, (firstUnmapped_eq_some s hb).2⟩
    · cases hv

/-! ### What a step does, by the state of `MEM` at `pc` -/

/-- A fetch faults in its slot or, for a long instruction whose slot is in `MEM`, in its constant (R111, R112). -/
theorem fetch_error_iff {f : Fault} :
    s.fetch = .error f ↔ ∃ b, f = .memoryFault b ∧
      (FirstOutside s s.pc b ∨
        WordInMem s s.pc ∧ hasConst (slotHead s.cfg.slotLayout (s.wordAt s.pc)) = true ∧
          FirstOutside s (s.pc + 4) b) := by
  simp only [← firstUnmapped_eq_some_iff, wordInMem_iff]
  unfold State.fetch State.memRead
  cases s.firstUnmapped s.pc with
  | some b => simp [@eq_comm _ f]
  | none =>
    by_cases hc : hasConst (slotHead s.cfg.slotLayout (s.wordAt s.pc)) = true
    · cases s.firstUnmapped (s.pc + 4) <;> simp [hc, @eq_comm _ f]
    · simp [hc]

section
variable (hended : s.ended = none)
include hended

/-- A slot that is not all in `MEM` ends the step, whatever it holds (R111). -/
theorem step_of_slot_outside (hb : FirstOutside s s.pc b) : step s = .fault (.memoryFault b) :=
  (step_eq_fault_iff s).2 ⟨hended, .inl (fetch_error_iff.2 ⟨b, rfl, .inl hb⟩)⟩

variable (hslot : WordInMem s s.pc) {head : Half} (hhead : slotHead s.cfg.slotLayout (s.wordAt s.pc) = head)
include hslot hhead

/-- The constant of a long instruction that is not all in `MEM` ends the step (R112). -/
theorem step_of_constant_outside (hlong : hasConst head = true) (hb : FirstOutside s (s.pc + 4) b) :
    step s = .fault (.memoryFault b) := by
  subst hhead
  exact (step_eq_fault_iff s).2 ⟨hended, .inl (fetch_error_iff.2 ⟨b, rfl, .inr ⟨hslot, hlong, hb⟩⟩)⟩

/-- A short instruction runs on its slot alone (R111). -/
theorem step_of_short (hshort : hasConst head = false) : step s = exec (decode head 0) s := by
  have hfetch : s.fetch = .ok (decode head 0) :=
    (fetch_ok_iff s).2 ⟨wordInMem_iff.1 hslot, by simp [hhead, hshort]⟩
  simp only [step, hended, hfetch]

/-- A long instruction runs with the word after its slot (R112). -/
theorem step_of_long (hlong : hasConst head = true) (hconst : WordInMem s (s.pc + 4)) {k : Word}
    (hk : s.wordAt (s.pc + 4) = k) : step s = exec (decode head k) s := by
  have hfetch : s.fetch = .ok (decode head k) :=
    (fetch_ok_iff s).2 ⟨wordInMem_iff.1 hslot, by rw [hhead, if_pos hlong, hk]; exact ⟨wordInMem_iff.1 hconst, rfl⟩⟩
  simp only [step, hended, hfetch]

end

end

/-! ### The obligations -/

/-- Settles O8: three bytes of the load are bytes 1 to 3 of the stored word, the fourth is outside the store. -/
theorem misalignedLoadAfterStore : Obligations.MisalignedLoadAfterStore := by
  intro s t a v w hstore hload
  obtain ⟨-, rfl⟩ := (memWrite_ok_iff s).1 hstore
  obtain ⟨-, rfl⟩ := (memRead_ok_iff _).1 hload
  obtain ⟨-, h1, h2, h3⟩ := byteAt_putWord s a v
  have h4 : (s.putWord a v).byteAt (a + 4) = s.byteAt (a + 4) :=
    byteAt_putWord_of_notMem s (notMem_wordAddrs_of_mem_add_four (List.mem_cons_self ..))
  have e2 : a + 1 + 1 = a + 2 := by bv_omega
  have e3 : a + 1 + 2 = a + 3 := by bv_omega
  have e4 : a + 1 + 3 = a + 4 := by bv_omega
  rw [State.wordAt, e2, e3, e4, h1, h2, h3, h4, toNat_wordOf, toNat_byteOf, toNat_byteOf, toNat_byteOf]
  have hv := v.isLt
  omega

/-- Settles O9, from the one use that an instruction makes of memory. -/
theorem onlyStoresChangeMemory : Obligations.OnlyStoresChangeMemory := by
  intro i s t a h ha
  obtain ⟨x, p, hi, hap⟩ := (exec_memoryUse i s).storesTo_of_byteAt_ne h ha
  exact ⟨x, p, hi, by simpa [wordAddrs] using hap⟩

/-- Settles O12: one lemma about the step for each clause. -/
theorem fetchFaultsInOrder : Obligations.FetchFaultsInOrder := fun _ hended =>
  ⟨fun _ hb => step_of_slot_outside hended hb,
    fun hslot hlong _ hb => step_of_constant_outside hended hslot rfl hlong hb,
    fun hslot hshort => step_of_short hended hslot rfl hshort⟩

/-- Settles O13: the fetch of the slot or of the constant faults, or the instruction's one access does. -/
theorem stepFaultsOnlyOutsideMem : Obligations.StepFaultsOnlyOutsideMem := by
  intro s f h
  obtain ⟨-, hfetch | ⟨i, -, hexec⟩⟩ := (step_eq_fault_iff s).1 h
  · obtain ⟨b, rfl, hslot | ⟨-, -, hconst⟩⟩ := fetch_error_iff.1 hfetch
    · exact ⟨b, rfl, unmapped_of_firstOutside hslot⟩
    · exact ⟨b, rfl, unmapped_of_firstOutside hconst⟩
  · exact (exec_memoryUse i s).fault_unmapped hexec

/-- Settles O22: the state after the store has the stored word at `p`, and the words that share no byte with it and
`MEM` as before, so that each clause is what the step does in that state. -/
theorem storeIsSeenByTheNextFetch : Obligations.StoreIsSeenByTheNextFetch := by
  intro s t x p i hi h hended
  obtain ⟨hp, hcfg, hstored, hkept⟩ := exec_storesTo_leaves hi h
  have hmem (a : Word) : WordInMem t a ↔ WordInMem s a := wordInMem_congr hcfg a
  rw [← hmem] at hp
  have hhead (e : p = t.pc) : slotHead t.cfg.slotLayout (t.wordAt t.pc) = slotHead s.cfg.slotLayout (s.reg x) := by
    rw [hcfg, ← e, hstored]
  have hconst_kept (e : p = t.pc) : t.wordAt (t.pc + 4) = s.wordAt (t.pc + 4) :=
    hkept _ fun c hc => e ▸ notMem_wordAddrs_of_mem_add_four hc
  have hslot_kept (e : p = t.pc + 4) : t.wordAt t.pc = s.wordAt t.pc :=
    hkept _ fun c hc hcp => notMem_wordAddrs_of_mem_add_four (e ▸ hcp) hc
  refine ⟨fun e hshort => ?_, fun e hlong hconst => ?_, fun e hlong b hb => ?_, fun e hslot hlong => ?_⟩
  · exact step_of_short hended (e ▸ hp) (hhead e) hshort
  · exact step_of_long hended (e ▸ hp) (hhead e) hlong ((hmem _).2 hconst) (hconst_kept e)
  · exact step_of_constant_outside hended (e ▸ hp) (hhead e) hlong ((firstOutside_congr hcfg _ _).2 hb)
  · exact step_of_long hended ((hmem _).2 hslot) (by rw [hcfg, hslot_kept e]) hlong (e ▸ hp) (e ▸ hstored)

end Machine

end Sys2Proof
end

section
/-! PROOFS. The four nibbles of `H`, the walk of the decoder through them, the encoder's bytes read back, and the
obligations of `30_encoding.md`. -/

namespace Sys2Proof

/-! ### Nibbles, bytes and `H` as numbers -/

theorem toNat_byteOfNibbles (hi lo : Label) : (byteOfNibbles hi lo).toNat = 16 * hi.val + lo.val := by
  rw [byteOfNibbles, BitVec.toNat_ofNat]
  omega

/-- `b0` is the upper byte of `H` (R14). -/
theorem toNat_halfOf (b0 b1 : Byte) : (halfOf b0 b1).toNat = 256 * b0.toNat + b1.toNat := by
  rw [halfOf, BitVec.toNat_append, ← Nat.shiftLeft_add_eq_or_of_lt b1.isLt, Nat.shiftLeft_eq, Nat.mul_comm]

theorem val_nibble (h : Half) (lo : Nat) : (nibble h lo).val = h.toNat / 2 ^ lo % 16 := rfl

/-- `H` with the nibbles `a`, `b`, `c`, `d` from the top. -/
def halfOfNibbles (a b c d : Label) : Half := halfOf (byteOfNibbles a b) (byteOfNibbles c d)

theorem toNat_halfOfNibbles (a b c d : Label) :
    (halfOfNibbles a b c d).toNat = 4096 * a.val + 256 * b.val + 16 * c.val + d.val := by
  rw [halfOfNibbles, toNat_halfOf, toNat_byteOfNibbles, toNat_byteOfNibbles]
  omega

/-- `H` is its four nibbles. -/
theorem halfOfNibbles_nibble (h : Half) :
    halfOfNibbles (nibble h 12) (nibble h 8) (nibble h 4) (nibble h 0) = h := by
  apply BitVec.eq_of_toNat_eq
  simp only [toNat_halfOfNibbles, val_nibble]
  have hh := h.isLt
  omega

section
variable (a b c d : Label)

@[simp] theorem nibble_halfOfNibbles_twelve : nibble (halfOfNibbles a b c d) 12 = a :=
  Fin.ext (by rw [val_nibble, toNat_halfOfNibbles]; omega)

@[simp] theorem nibble_halfOfNibbles_eight : nibble (halfOfNibbles a b c d) 8 = b :=
  Fin.ext (by rw [val_nibble, toNat_halfOfNibbles]; omega)

@[simp] theorem nibble_halfOfNibbles_four : nibble (halfOfNibbles a b c d) 4 = c :=
  Fin.ext (by rw [val_nibble, toNat_halfOfNibbles]; omega)

@[simp] theorem nibble_halfOfNibbles_zero : nibble (halfOfNibbles a b c d) 0 = d :=
  Fin.ext (by rw [val_nibble, toNat_halfOfNibbles]; omega)

end

/-! ### The pages -/

section
variable {op x y z : Label} {k : Word}

/-- Each page leaves the nibble `F`, and no other, to the page after it (R86). -/
theorem decodePage1_eq_none_iff : decodePage1 op x y z = none ↔ op = 15 := by
  fin_cases op <;> simp [decodePage1]

theorem decodePage2_eq_none_iff : decodePage2 op x y = none ↔ op = 15 := by
  fin_cases op <;> simp [decodePage2]

theorem decodePage3_eq_none_iff : decodePage3 op x k = none ↔ op = 15 := by
  fin_cases op <;> simp [decodePage3]

theorem decodePage4_eq_none_iff : decodePage4 op k = none ↔ op = 15 := by
  fin_cases op <;> simp [decodePage4]

end

namespace Machine

/-! ### The walk through the nibbles -/

/-- The decoder's walk: nibbles `F` from the top, and then an opcode of the page that they lead to (R86). -/
inductive Walk (k : Word) : Label → Label → Label → Label → Instr → Prop
  | page1 {op x y z : Label} {i : Instr} : decodePage1 op x y z = some i → Walk k op x y z i
  | page2 {op x y : Label} {i : Instr} : decodePage2 op x y = some i → Walk k 15 op x y i
  | page3 {op x : Label} {i : Instr} : decodePage3 op x k = some i → Walk k 15 15 op x i
  | page4 {op : Label} {i : Instr} : decodePage4 op k = some i → Walk k 15 15 15 op i
  | error : Walk k 15 15 15 15 .decoderError

/-- The decoder walks the nibbles of `H`. -/
theorem walk_decode (h : Half) (k : Word) :
    Walk k (nibble h 12) (nibble h 8) (nibble h 4) (nibble h 0) (decode h k) := by
  unfold decode
  split
  · next h1 => exact .page1 h1
  · next h1 =>
    rw [decodePage1_eq_none_iff.1 h1]
    split
    · next h2 => exact .page2 h2
    · next h2 =>
      rw [decodePage2_eq_none_iff.1 h2]
      split
      · next h3 => exact .page3 h3
      · next h3 =>
        rw [decodePage3_eq_none_iff.1 h3]
        split
        · next h4 => exact .page4 h4
        · next h4 =>
          rw [decodePage4_eq_none_iff.1 h4]
          exact .error

/-- A walk has one end: what the decoder answers on those nibbles. -/
theorem Walk.decode_eq {k : Word} {a b c d : Label} {i : Instr} (hw : Walk k a b c d i) :
    decode (halfOfNibbles a b c d) k = i := by
  unfold decode
  cases hw with
  | page1 h1 => simp [h1]
  | page2 h2 => simp [decodePage1_eq_none_iff.2, h2]
  | page3 h3 => simp [decodePage1_eq_none_iff.2, decodePage2_eq_none_iff.2, h3]
  | page4 h4 => simp [decodePage1_eq_none_iff.2, decodePage2_eq_none_iff.2, decodePage3_eq_none_iff.2, h4]
  | error =>
    simp [decodePage1_eq_none_iff.2, decodePage2_eq_none_iff.2, decodePage3_eq_none_iff.2, decodePage4_eq_none_iff.2]

/-- The row of the opcode map to which the nibbles `a`, `b`, `c`, `d` of `H` lead: page, opcode and labels (R86,
R88). -/
def rowAt (a b c d : Nat) : Nat × Nat × List Nat :=
  if a ≠ 0xF then (1, a, [b, c, d])
  else if b ≠ 0xF then (2, b, [c, d])
  else if c ≠ 0xF then (3, c, [d])
  else if d ≠ 0xF then (4, d, [])
  else (5, 0xF, [])

/-- Whether a row of the opcode map has a constant (R89). -/
def takesConst (row : Nat × Nat × List Nat) : Bool :=
  decide (row.1 = 3 ∧ row.2.1 ∈ [1, 2, 3, 5, 6, 7, 8, 9, 10, 12] ∨ row.1 = 4 ∧ row.2.1 ∈ [2, 3, 4, 5])

theorem takesConst_rowAt_iff {a b c d : Nat} :
    takesConst (rowAt a b c d) = true ↔
      (a = 0xF ∧ b = 0xF) ∧ c ∈ [1, 2, 3, 5, 6, 7, 8, 9, 10, 12] ∨
        (a = 0xF ∧ b = 0xF ∧ c = 0xF) ∧ d ∈ [2, 3, 4, 5] := by
  by_cases ha : a = 0xF
  · by_cases hb : b = 0xF
    · by_cases hc : c = 0xF
      · by_cases hd : d = 0xF <;> simp [rowAt, takesConst, ha, hb, hc, hd]
      · simp [rowAt, takesConst, ha, hb, hc]
    · simp [rowAt, takesConst, ha, hb]
  · simp [rowAt, takesConst, ha]

/-- What a walk leads to: the row of its nibbles in the opcode map, an instruction with these nibbles as its head, and
the constant `k` exactly where the row has one. -/
theorem Walk.row_head_const {k : Word} {a b c d : Label} {i : Instr} (hw : Walk k a b c d i) :
    opcodeMap i = rowAt a b c d ∧ i.head = (byteOfNibbles a b, byteOfNibbles c d) ∧
      i.const? = if takesConst (rowAt a b c d) then some k else none := by
  cases hw with
  | page1 h1 => fin_cases a <;> cases h1 <;> exact ⟨rfl, rfl, rfl⟩
  | page2 h2 => fin_cases b <;> cases h2 <;> exact ⟨rfl, rfl, rfl⟩
  | page3 h3 => fin_cases c <;> cases h3 <;> exact ⟨rfl, rfl, rfl⟩
  | page4 h4 => fin_cases d <;> cases h4 <;> exact ⟨rfl, rfl, rfl⟩
  | error => exact ⟨rfl, rfl, rfl⟩

/-- Every instruction is the end of a walk through the nibbles of its own head, with its constant, or 0 where it has
none. -/
theorem exists_walk (i : Instr) : ∃ a b c d,
    i.head = (byteOfNibbles a b, byteOfNibbles c d) ∧ Walk (i.const?.getD 0) a b c d i := by
  cases i with
  | invalidP1 | addr | subr | mulr | divr | fixmulr | fixdivr | reservedP1Op7 | reservedP1Op8 | reservedP1Op9
  | reservedP1OpA | reservedP1OpB | reservedP1OpC | reservedP1OpD | reservedP1OpE =>
    exact ⟨_, _, _, _, rfl, .page1 rfl⟩
  | invalidP2 | writer | readr | movr | cmpr | lshiftr | ashiftr | rollr | andr | orr | xorr | reservedP2OpB
  | reservedP2OpC | reservedP2OpD | reservedP2OpE => exact ⟨_, _, _, _, rfl, .page2 rfl⟩
  | invalidP3 | readc | writec | movc | jmpr | cmpc | lshiftc | ashiftc | rollc | andc | orc | notr | xorc
  | reservedP3OpD | reservedP3OpE => exact ⟨15, 15, _, _, rfl, .page3 rfl⟩
  | invalidP4 | nop | jmp | je | jg | jl | reservedP4Op6 | reservedP4Op7 | reservedP4Op8 | reservedP4Op9
  | reservedP4OpA | reservedP4OpB | reservedP4OpC | reservedP4OpD | reservedP4OpE =>
    exact ⟨15, 15, _, _, rfl, .page4 rfl⟩
  | decoderError => exact ⟨15, 15, _, _, rfl, .error⟩

/-! ### The decoder on `H` and the encoder's head -/

section
variable (h : Half) (k : Word)

theorem opcodeMap_decode :
    opcodeMap (decode h k) = rowAt (nibble h 12) (nibble h 8) (nibble h 4) (nibble h 0) := by
  obtain ⟨hrow, -, -⟩ := (walk_decode h k).row_head_const
  exact hrow

/-- The head of what `H` decodes to is `H` again. -/
theorem halfOf_head_decode : halfOf (decode h k).head.1 (decode h k).head.2 = h := by
  obtain ⟨-, hhead, -⟩ := (walk_decode h k).row_head_const
  rw [hhead]
  exact halfOfNibbles_nibble h

/-- Whether a constant follows the slot is read off the nibbles of `H` (R94). -/
theorem hasConst_eq_takesConst :
    hasConst h = takesConst (rowAt (nibble h 12) (nibble h 8) (nibble h 4) (nibble h 0)) := by
  obtain ⟨-, -, hconst⟩ := (walk_decode h 0).row_head_const
  rw [hasConst, hconst]
  cases takesConst _ <;> rfl

theorem const?_decode : (decode h k).const? = if hasConst h then some k else none := by
  obtain ⟨-, -, hconst⟩ := (walk_decode h k).row_head_const
  rw [hconst, hasConst_eq_takesConst]

theorem isSome_const?_decode : (decode h k).const?.isSome = hasConst h := by
  rw [const?_decode]
  cases hasConst h <;> rfl

end

/-- The head of an instruction decodes to it. -/
theorem decode_head (i : Instr) : decode (halfOf i.head.1 i.head.2) (i.const?.getD 0) = i := by
  obtain ⟨a, b, c, d, hhead, hw⟩ := exists_walk i
  rw [hhead]
  exact hw.decode_eq

/-- The head of an instruction says whether it has a constant (R94). -/
theorem hasConst_head (i : Instr) : hasConst (halfOf i.head.1 i.head.2) = i.const?.isSome := by
  rw [← isSome_const?_decode _ (i.const?.getD 0), decode_head]

/-! ### The decoder on bytes -/

/-- Of the slot the decoder uses the instruction bits alone (R83). -/
theorem decodeBytes_congr {l : SlotLayout} {b0 b1 b2 b3 c0 c1 c2 c3 : Byte} (rest : List Byte)
    (hhead : slotHead l (wordOf b0 b1 b2 b3) = slotHead l (wordOf c0 c1 c2 c3)) :
    decodeBytes l (b0 :: b1 :: b2 :: b3 :: rest) = decodeBytes l (c0 :: c1 :: c2 :: c3 :: rest) := by
  simp only [decodeBytes, hhead]

section
variable (l : SlotLayout) {b : Byte × Byte} (rest : List Byte)

/-- The encoder's slot of a short instruction, whatever follows it. -/
theorem decodeBytes_slotBytes_of_short (hshort : hasConst (halfOf b.1 b.2) = false) :
    decodeBytes l (slotBytes l b ++ rest) = .ok (decode (halfOf b.1 b.2) 0, rest) := by
  cases l <;> simp [slotBytes, decodeBytes, hshort]

/-- The encoder's slot of a long instruction with its constant, whatever follows them. -/
theorem decodeBytes_slotBytes_of_long (hlong : hasConst (halfOf b.1 b.2) = true) (k : Word) :
    decodeBytes l (slotBytes l b ++ (bytesOf k ++ rest)) = .ok (decode (halfOf b.1 b.2) k, rest) := by
  cases l <;> simp [slotBytes, bytesOf, decodeBytes, hlong]

end

/-! ### Steps that complete -/

/-- No instruction is refused. -/
theorem MemoryUse.ne_refused {i : Instr} {s : State} {r : Result} (hr : MemoryUse i s r) (q : Refusal) :
    r ≠ .refused q := by
  intro h
  cases hr with
  | noAccess => cases h
  | store | load =>
    obtain ⟨_, -, hv⟩ := orFault_eq_refused_iff.1 h
    cases hv

/-- A step is refused only in a run that has ended. -/
theorem ended_of_step_eq_refused {s : State} {q : Refusal} (h : step s = .refused q) :
    ∃ r, s.ended = some r ∧ q = .runEnded r := by
  unfold step at h
  split at h
  · next r hr =>
    cases h
    exact ⟨r, hr, rfl⟩
  · split at h
    · cases h
    · next i _ => exact absurd h ((exec_memoryUse i s).ne_refused q)

/-! ### The obligations -/

/-- Settles O2: the slot gives the head of the instruction, whose bits tell whether a constant follows, and both decode
to the instruction. -/
theorem decodeOfEncode : Obligations.DecodeOfEncode := by
  intro l i rest
  have hdec := decode_head i
  have hhas := hasConst_head i
  unfold encode
  cases hk : i.const? with
  | none =>
    rw [hk, Option.getD_none] at hdec
    rw [hk, Option.isSome_none] at hhas
    rw [List.append_nil, decodeBytes_slotBytes_of_short l rest hhas, hdec]
  | some k =>
    rw [hk, Option.getD_some] at hdec
    rw [hk, Option.isSome_some] at hhas
    rw [List.append_assoc, decodeBytes_slotBytes_of_long l rest hhas k, hdec]

/-- Settles O3: the walk that decodes `H` leads to an instruction whose head has the same nibbles. -/
theorem encodeOfDecode : Obligations.EncodeOfDecode :=
  fun h k => ⟨halfOf_head_decode h k, const?_decode h k⟩

/-- Settles O4: the row of the opcode map that the walk leads to, with the nibbles of `H` as numbers. -/
theorem decodeWalksTheNibbles : Obligations.DecodeWalksTheNibbles := by
  intro h k
  have htop : h.toNat / 4096 % 16 = h.toNat / 4096 := by
    have hh := h.isLt
    omega
  simpa [rowAt, val_nibble, htop] using opcodeMap_decode h k

/-- Settles O5: the rows with a constant, with the upper nibbles of `H` read together. -/
theorem constantFollowsExactlyFourteenOpcodes : Obligations.ConstantFollowsExactlyFourteenOpcodes := by
  intro h
  rw [hasConst_eq_takesConst, takesConst_rowAt_iff]
  simp only [val_nibble]
  have hh := h.isLt
  refine or_congr (and_congr ?_ ?_) (and_congr ?_ ?_)
  · omega
  · rfl
  · omega
  · rw [pow_zero, Nat.div_one]

/-- Settles O14: a step could fault only outside `MEM`, and is refused only in a run that has ended. -/
theorem everyStepCompletesInFullMemory : Obligations.EveryStepCompletesInFullMemory := by
  intro s hmem hended
  cases h : step s with
  | next t => exact ⟨t, rfl⟩
  | fault f =>
    obtain ⟨a, -, ha⟩ := stepFaultsOnlyOutsideMem s f h
    simp [hmem a] at ha
  | refused q =>
    obtain ⟨r, hr, -⟩ := ended_of_step_eq_refused h
    simp [hended] at hr

/-- Settles O1, by computation on the ten fixed images. -/
theorem specWordsDecode : Obligations.SpecWordsDecode :=
  ⟨rfl, rfl, rfl, rfl, rfl, rfl, rfl, rfl, rfl, rfl⟩

/-- Settles O6: in each layout the two slots have the same instruction bits. -/
theorem paddingIsIgnored : Obligations.PaddingIsIgnored :=
  fun b0 b1 p q p' q' rest => ⟨decodeBytes_congr rest (by simp), decodeBytes_congr rest (by simp)⟩

end Machine

end Sys2Proof
end

section
/-! PROOFS. The verdict of an instruction, by its row in the opcode map; how each verdict ends a step; and the
obligations of `40_execution_cycle.md`. -/

namespace Sys2Proof.Machine

/-! ### The verdict of an instruction -/

/-- The first reserved opcode of a page (R92). -/
def firstReservedOpcode : Nat → Nat
  | 1 => 7
  | 2 => 11
  | 3 => 13
  | _ => 6

/-- The verdict for opcode `op` of `page`: page 5 is `FF FF`, opcode 0 the zero trap of its page, and the upper opcodes
of a page are reserved (R91, R92, R117). -/
def verdictAt (page op : Nat) : Verdict :=
  if page = 5 then .invalidNextInstrPage
  else if op = 0 then .invalidZero
  else if firstReservedOpcode page ≤ op then .invalidReserved
  else .defined

/-- The verdict that the handler runs on after `i` (R117). -/
def verdictOf (i : Instr) : Verdict := verdictAt (opcodeMap i).1 (opcodeMap i).2.1

/-- `v` is one of the two verdicts that set invalid_instruction (R117). -/
def IsInvalidVerdict (v : Verdict) : Prop := v = .invalidZero ∨ v = .invalidNextInstrPage

section
variable {page op : Nat}

theorem verdictAt_eq_invalidReserved_iff :
    verdictAt page op = .invalidReserved ↔ page ≠ 5 ∧ op ≠ 0 ∧ firstReservedOpcode page ≤ op := by
  unfold verdictAt
  split_ifs <;> simp_all

theorem isInvalidVerdict_verdictAt_iff : IsInvalidVerdict (verdictAt page op) ↔ page = 5 ∨ op = 0 := by
  unfold verdictAt IsInvalidVerdict
  split_ifs <;> simp_all

end

/-- `H` as a number, of its nibbles from the top (R14). -/
def headOfNibbles (a b c d : Label) : Nat := 4096 * a.val + 256 * b.val + 16 * c.val + d.val

/-- The reserved ranges of `H` are the reserved opcodes of the pages (R86, R92). -/
theorem reservedHead_iff_verdictAt (a b c d : Label) :
    ReservedHead (headOfNibbles a b c d) ↔
      verdictAt (rowAt a b c d).1 (rowAt a b c d).2.1 = .invalidReserved := by
  rw [verdictAt_eq_invalidReserved_iff, rowAt, ReservedHead, headOfNibbles]
  split_ifs <;> simp only [firstReservedOpcode] <;> omega

/-- The illegal values of `H` are the zero opcodes of the pages and `FF FF` (R86, R91). -/
theorem illegalHead_iff_verdictAt (a b c d : Label) :
    IllegalHead (headOfNibbles a b c d) ↔
      IsInvalidVerdict (verdictAt (rowAt a b c d).1 (rowAt a b c d).2.1) := by
  rw [isInvalidVerdict_verdictAt_iff, rowAt, IllegalHead, headOfNibbles]
  split_ifs <;> dsimp only <;> omega

/-- The head of an instruction as a number and its row in the opcode map come from the same four nibbles. -/
theorem exists_nibbles (i : Instr) : ∃ a b c d : Label,
    headNat i = headOfNibbles a b c d ∧ opcodeMap i = rowAt a b c d := by
  obtain ⟨a, b, c, d, hhead, hw⟩ := exists_walk i
  obtain ⟨hrow, -, -⟩ := hw.row_head_const
  refine ⟨a, b, c, d, ?_, hrow⟩
  rw [headNat, hhead, toNat_byteOfNibbles, toNat_byteOfNibbles, headOfNibbles]
  omega

theorem reservedHead_headNat_iff (i : Instr) : ReservedHead (headNat i) ↔ verdictOf i = .invalidReserved := by
  obtain ⟨a, b, c, d, hhead, hrow⟩ := exists_nibbles i
  rw [hhead, verdictOf, hrow, reservedHead_iff_verdictAt]

theorem illegalHead_headNat_iff (i : Instr) : IllegalHead (headNat i) ↔ IsInvalidVerdict (verdictOf i) := by
  obtain ⟨a, b, c, d, hhead, hrow⟩ := exists_nibbles i
  rw [hhead, verdictOf, hrow, illegalHead_iff_verdictAt]

/-! ### How a verdict ends a step -/

/-- What an instruction with verdict `v` answers: a fault, or a state that the end of a step with `v` has left (R110,
R113). -/
inductive Concludes (v : Verdict) : Result → Prop
  | next (u : State) (p : Word) : Concludes v (.next (u.conclude v p))
  | fault (f : Fault) : Concludes v (.fault f)

theorem Concludes.of_access {v : Verdict} {α : Type} {r : Except Fault α} {k : α → Result}
    (h : ∀ w, Concludes v (k w)) : Concludes v (orFault r k) := by
  cases r with
  | ok w => exact h w
  | error f => exact .fault f

theorem Concludes.of_jump_or_advance (s : State) (c : Bool) (len target : Word) :
    Concludes .defined (if c then s.jump len target else s.advance len) := by
  cases c with
  | true => exact .next _ _
  | false => exact .next _ _

/-- Every instruction that answers has ended its step with its own verdict. -/
theorem exec_concludes (i : Instr) (s : State) : Concludes (verdictOf i) (exec i s) := by
  cases i with
  | writer | writec | readr => exact .of_access fun _ => .next _ _
  | readc x k =>
    change Concludes .defined (execReadc x k s)
    unfold execReadc
    split
    · exact .of_access fun _ => .next _ _
    · exact .next _ _
  | je k => exact .of_jump_or_advance s s.flags.equal s.cfg.lenLong k
  | jg k => exact .of_jump_or_advance s s.flags.greaterThan s.cfg.lenLong k
  | jl k => exact .of_jump_or_advance s s.flags.lessThan s.cfg.lenLong k
  | _ => exact .next _ _

/-- The flags that an instruction leaves are those of the handler on its verdict (R117). -/
theorem exec_flags_handled {i : Instr} {s t : State} (h : exec i s = .next t) :
    ∃ f : Flags, t.flags = f.handled (verdictOf i) := by
  have hc := exec_concludes i s
  rw [h] at hc
  cases hc with
  | next u p => exact ⟨u.flags, rfl⟩

/-- An instruction whose verdict is a trap does what that trap does, and nothing else (R116). -/
theorem exec_eq_trap {i : Instr} (h : verdictOf i ≠ .defined) (s : State) : exec i s = s.trap (verdictOf i) := by
  cases i with
  | invalidP1 | invalidP2 | invalidP3 | invalidP4 | decoderError | reservedP1Op7 | reservedP1Op8 | reservedP1Op9
  | reservedP1OpA | reservedP1OpB | reservedP1OpC | reservedP1OpD | reservedP1OpE | reservedP2OpB | reservedP2OpC
  | reservedP2OpD | reservedP2OpE | reservedP3OpD | reservedP3OpE | reservedP4Op6 | reservedP4Op7 | reservedP4Op8
  | reservedP4Op9 | reservedP4OpA | reservedP4OpB | reservedP4OpC | reservedP4OpD | reservedP4OpE => rfl
  | _ => exact absurd rfl h

section
variable {s u : State} {v : Verdict} {r : StopReason}

/-- The end of a step writes no register, no byte of memory and none of the six flags. -/
theorem conclude_frame (s : State) (v : Verdict) (p : Word) :
    RegsKept s (s.conclude v p) [] ∧ SameMem s (s.conclude v p) ∧ SixFlagsKept s (s.conclude v p) :=
  ⟨fun _ _ => rfl, fun _ => rfl, ⟨rfl, rfl, rfl⟩, ⟨rfl, rfl⟩, rfl⟩

/-- A machine that continues after traps leaves "the run has ended" as it was (R118, log 28). -/
theorem endedAfter_of_continues (h : s.cfg.continueAfterTrap = true) (v : Verdict) : s.endedAfter v = s.ended :=
  if_pos h

/-- A trap ends the run for its reason, unless the machine continues after traps (R118). -/
theorem endedAfter_of_stopReason (hv : v.stopReason = some r) :
    s.endedAfter v = if s.cfg.continueAfterTrap then s.ended else some r := by
  rw [State.endedAfter, hv]

/-- When the machine does not continue after traps, the end of a step ends a run that has not ended exactly when it
sets a trap flag (R117, R118). -/
theorem ended_conclude_ne_none_iff (hcont : u.cfg.continueAfterTrap = false) (hended : u.ended = none) (p : Word) :
    (u.conclude v p).ended ≠ none ↔
      (u.conclude v p).flags.invalidInstruction = true ∨ (u.conclude v p).flags.reservedInstruction = true := by
  cases v with
  | defined => simp [hended]
  | invalidZero | invalidNextInstrPage | invalidReserved => simp [State.endedAfter, Verdict.stopReason, hcont]

/-- A trap sets exactly one of the two trap flags (R117). -/
theorem trapFlags_handled (f : Flags) (hv : v ≠ .defined) :
    (f.handled v).invalidInstruction = !(f.handled v).reservedInstruction := by
  cases v with
  | defined => exact absurd rfl hv
  | invalidZero | invalidNextInstrPage | invalidReserved => rfl

/-- The trap flag that a verdict sets is the one of the reason for which it ends the run (R117, R118). -/
theorem trapFlags_of_stopReason (f : Flags) (hv : v.stopReason = some r) :
    (f.handled v).invalidInstruction = decide (r = .invalidInstruction) ∧
      (f.handled v).reservedInstruction = decide (r = .reservedInstruction) := by
  cases v with
  | defined => cases hv
  | invalidZero | invalidNextInstrPage | invalidReserved =>
    cases hv
    exact ⟨rfl, rfl⟩

/-- What a trapping encoding that stops for `r` leaves: the flag of `r` alone of the two trap flags, `pc` past its
slot, and the end of the run unless the machine continues after traps (R116, R117, R118). -/
theorem exec_of_stopReason {i : Instr} (hi : (verdictOf i).stopReason = some r) (s : State) :
    ∃ t, exec i s = .next t ∧ t.flags.invalidInstruction = decide (r = .invalidInstruction) ∧
      t.flags.reservedInstruction = decide (r = .reservedInstruction) ∧ t.flags.reserved = 0 ∧
      t.pc = s.pc + s.cfg.lenShort ∧ t.ended = (if s.cfg.continueAfterTrap then s.ended else some r) ∧
      RegsKept s t [] ∧ SameMem s t ∧ SixFlagsKept s t ∧ t.cfg = s.cfg := by
  have htrap : verdictOf i ≠ .defined := fun h => by simp [h, Verdict.stopReason] at hi
  obtain ⟨hregs, hmem, hsix⟩ := conclude_frame s (verdictOf i) (s.pc + s.cfg.lenShort)
  obtain ⟨hinvalid, hreserved⟩ := trapFlags_of_stopReason s.flags hi
  exact ⟨_, exec_eq_trap htrap s, hinvalid, hreserved, rfl, rfl, endedAfter_of_stopReason hi, hregs, hmem, hsix,
    rfl⟩

end

/-- The five encodings of `trapsInvalid` stop for invalid_instruction. -/
theorem stopReason_of_mem_trapsInvalid {x y z : Label} {i : Instr} (hi : i ∈ trapsInvalid x y z) :
    (verdictOf i).stopReason = some .invalidInstruction := by
  have hall : (trapsInvalid x y z).map (fun i => (verdictOf i).stopReason) =
    List.replicate (trapsInvalid x y z).length (some .invalidInstruction) := rfl
  exact List.map_eq_replicate_iff.1 hall i hi

/-- The 23 encodings of `trapsReserved` stop for reserved_instruction. -/
theorem stopReason_of_mem_trapsReserved {x y z : Label} {i : Instr} (hi : i ∈ trapsReserved x y z) :
    (verdictOf i).stopReason = some .reservedInstruction := by
  have hall : (trapsReserved x y z).map (fun i => (verdictOf i).stopReason) =
    List.replicate (trapsReserved x y z).length (some .reservedInstruction) := rfl
  exact List.map_eq_replicate_iff.1 hall i hi

/-! ### The range flags and the comparison flags after an instruction that names them -/

section
variable {i : Instr} {s t : State}

/-- addr, subr and fixmulr take overflow and underflow from one exact result (R131, R132, R135). -/
theorem exec_rangeFlags (hi : NamesRangeFlags i) (h : exec i s = .next t) :
    ∃ e : Int, t.flags.overflow = decide (2 ^ 31 - 1 < e) ∧ t.flags.underflow = decide (e < -2 ^ 31) := by
  obtain ⟨x, y, z, rfl | rfl | rfl⟩ := hi <;> cases h <;> exact ⟨_, rfl, rfl⟩

/-- No number is above the signed range and below it. -/
theorem not_overflow_and_underflow (e : Int) : (decide (2 ^ 31 - 1 < e) && decide (e < -2 ^ 31)) = false := by
  rw [Bool.and_eq_false_iff, decide_eq_false_iff_not, decide_eq_false_iff_not]
  omega

/-- cmpr and cmpc leave the signed order of the two numbers in the comparison flags (R154, R186, D14). -/
theorem exec_compareFlags {x : Label} {v : Word} (hi : (∃ y, i = .cmpr x y ∧ v = s.reg y) ∨ i = .cmpc x v)
    (h : exec i s = .next t) :
    t.flags.equal = decide ((s.reg x).toInt = v.toInt) ∧ t.flags.greaterThan = decide (v.toInt < (s.reg x).toInt) ∧
      t.flags.lessThan = decide ((s.reg x).toInt < v.toInt) := by
  have hflags : ∃ len, t = (s.setCompared (s32 (s.reg x) - s32 v)).conclude .defined (s.pc + len) := by
    obtain ⟨y, rfl, rfl⟩ | rfl := hi
    · exact ⟨_, (advance_eq_next_iff _).1 h⟩
    · exact ⟨_, (advance_eq_next_iff _).1 h⟩
  obtain ⟨len, rfl⟩ := hflags
  simp only [conclude_flags, setCompared_flags, handled_equal, handled_greaterThan, handled_lessThan, compared_equal,
    compared_greaterThan, compared_lessThan, s32]
  refine ⟨?_, ?_, ?_⟩ <;> exact decide_eq_decide.2 (by omega)

/-- Where a conditional jump whose flag says whether `P` goes (R115, R213, R214, R215). -/
theorem jump_or_advance_pc {c : Bool} {P : Prop} [Decidable P] (hc : c = decide P) (t : State) (len target : Word) :
    ∃ u, (if c then t.jump len target else t.advance len) = .next u ∧
      u.pc = if P then (if t.cfg.jumpAddsLen then target + len else target) else t.pc + len := by
  subst hc
  by_cases hP : P
  · simp only [hP, decide_true, if_true]
    exact ⟨_, rfl, rfl⟩
  · simp only [hP, decide_false, if_false]
    exact ⟨_, rfl, rfl⟩

end

/-! ### The bytes at an address -/

/-- The bytes stand in `MEM` from address `a` on, modulo 2^32. -/
def BytesStandAt (s : State) (a : Word) (bytes : List Byte) : Prop :=
  ∀ (n : Nat) (b : Byte), bytes[n]? = some b →
    s.mapped (a + BitVec.ofNat 32 n) = true ∧ s.byteAt (a + BitVec.ofNat 32 n) = b

/-- Four bytes make the word at their address, and the others stand after it (R11, R52). -/
theorem BytesStandAt.word {s : State} {a : Word} {b0 b1 b2 b3 : Byte} {rest : List Byte}
    (h : BytesStandAt s a (b0 :: b1 :: b2 :: b3 :: rest)) :
    WordInMem s a ∧ s.wordAt a = wordOf b0 b1 b2 b3 ∧ BytesStandAt s (a + 4) rest := by
  obtain ⟨m0, e0⟩ := h 0 b0 rfl
  obtain ⟨m1, e1⟩ := h 1 b1 rfl
  obtain ⟨m2, e2⟩ := h 2 b2 rfl
  obtain ⟨m3, e3⟩ := h 3 b3 rfl
  have hzero : a + BitVec.ofNat 32 0 = a := by simp
  rw [hzero] at m0 e0
  refine ⟨⟨m0, m1, m2, m3⟩, ?_, fun n b hn => ?_⟩
  · rw [← e0, ← e1, ← e2, ← e3]
    rfl
  · have hshift : a + 4 + BitVec.ofNat 32 n = a + BitVec.ofNat 32 (n + 4) := by
      rw [Nat.add_comm, BitVec.ofNat_add, ← BitVec.add_assoc]
      rfl
    rw [hshift]
    exact h (n + 4) b hn

/-! ### The obligations -/

/-- Settles O20: of the three ways in which a step ends only a trap ends a run that has not ended, and it adds nothing
to the end of the step. -/
theorem trapStopEndState : Obligations.TrapStopEndState := by
  intro s t hcont h
  obtain ⟨hended, i, -, hexec⟩ := (step_eq_next_iff s).1 h
  have hends := exec_ends hexec
  refine ⟨?_, fun hstop => ?_⟩
  · obtain ⟨u, v, p, hu, rfl⟩ := hends.concludes
    obtain ⟨-, hue, hucfg⟩ := hu.pc_ended_cfg
    exact ended_conclude_ne_none_iff (hucfg ▸ hcont) (hue.trans hended) p
  · cases hends with
    | trap v hv =>
      obtain ⟨hregs, hmem, hsix⟩ := conclude_frame s v (s.pc + s.cfg.lenShort)
      exact ⟨fun r => hregs r List.not_mem_nil, hmem, hsix, rfl, trapFlags_handled s.flags hv⟩
    | jump => exact absurd ((endedAfter_defined s).trans hended) hstop
    | @advance u hu =>
      obtain ⟨-, hue, -⟩ := hu.pc_ended_cfg
      exact absurd ((endedAfter_defined u).trans (hue.trans hended)) hstop

/-- Settles O21: a step begins in a run that has not ended, and its end leaves that as it was. -/
theorem continuingMachineNeverEnds : Obligations.ContinuingMachineNeverEnds := by
  intro s t hcont h
  obtain ⟨hended, i, -, hexec⟩ := (step_eq_next_iff s).1 h
  obtain ⟨u, v, p, hu, rfl⟩ := (exec_ends hexec).concludes
  obtain ⟨-, hue, hucfg⟩ := hu.pc_ended_cfg
  rw [conclude_ended, endedAfter_of_continues (hucfg ▸ hcont), hue, hended]

/-- Settles O23: the handler runs on the verdict of the instruction, which its head gives. -/
theorem handlerRunsAfterEveryInstruction : Obligations.HandlerRunsAfterEveryInstruction := by
  intro i s t h
  obtain ⟨f, hf⟩ := exec_flags_handled h
  rw [hf, reservedHead_headNat_iff, illegalHead_headNat_iff]
  exact ⟨by simp, by simp [IsInvalidVerdict], rfl⟩

/-- Settles O28: addr, subr and fixmulr take both flags from one number, and every other instruction keeps both. -/
theorem overflowAndUnderflowExclude : Obligations.OverflowAndUnderflowExclude := by
  intro i s t h
  have hnamed (hi : NamesRangeFlags i) : (t.flags.overflow && t.flags.underflow) = false := by
    obtain ⟨e, ho, hu⟩ := exec_rangeFlags hi h
    rw [ho, hu, not_overflow_and_underflow]
  refine ⟨fun hs => ?_, hnamed⟩
  by_cases hi : NamesRangeFlags i
  · exact hnamed hi
  · obtain ⟨-, hrange, -⟩ := flagsChangeOnlyWhereNamed i s t h
    obtain ⟨ho, hu⟩ := hrange hi
    rw [ho, hu, hs]

/-- Settles O30: the comparison leaves the signed order in the flags that the jumps test. -/
theorem compareThenJumpFollowsSignedOrder : Obligations.CompareThenJumpFollowsSignedOrder := by
  intro s t x v k i hi h
  obtain ⟨heq, hgt, hlt⟩ := exec_compareFlags hi h
  rw [← (exec_ends h).cfg_eq]
  exact ⟨jump_or_advance_pc heq t _ k, jump_or_advance_pc hgt t _ k, jump_or_advance_pc hlt t _ k⟩

/-- Settles O10: the bytes of the slot, and then those of the constant, make the words that the fetch reads. -/
theorem stepRunsDecodedInstruction : Obligations.StepRunsDecodedInstruction := by
  intro s bytes rest i hended hbytes hdec
  change BytesStandAt s s.pc bytes at hbytes
  unfold decodeBytes at hdec
  split at hdec
  · obtain ⟨hslot, hword, hafter⟩ := hbytes.word
    rw [← hword] at hdec
    split at hdec
    · next hlong =>
      split at hdec
      · obtain ⟨hconst, hk, -⟩ := hafter.word
        rw [← hk] at hdec
        cases hdec
        exact step_of_long hended hslot rfl hlong hconst rfl
      · cases hdec
    · next hshort =>
      cases hdec
      exact step_of_short hended hslot rfl (Bool.eq_false_iff.2 hshort)
  · cases hdec

/-- Settles O11, by the first test of a step. -/
theorem endedRunTakesNoStep : Obligations.EndedRunTakesNoStep := by
  intro s r h
  rw [step, h]

/-- Settles O55: what a trapping encoding leaves that stops for invalid_instruction. -/
theorem invalidInstructionsTrap : Obligations.InvalidInstructionsTrap := by
  intro s x y z i hi
  exact exec_of_stopReason (stopReason_of_mem_trapsInvalid hi) s

/-- Settles O56: what a trapping encoding leaves that stops for reserved_instruction. -/
theorem reservedInstructionsTrap : Obligations.ReservedInstructionsTrap := by
  intro s x y z i hi
  obtain ⟨t, hexec, hinvalid, hreserved, hrest⟩ := exec_of_stopReason (stopReason_of_mem_trapsReserved hi) s
  exact ⟨t, hexec, hreserved, hinvalid, hrest⟩

end Sys2Proof.Machine
end

section
/-! PROOFS. The patterns of sums, differences and products of numbers; what an instruction leaves that stores such a
result; and the obligations of `41_three_register.md`. -/

namespace Sys2Proof.Machine

/-! ### Exact results and their patterns -/

section
variable (a b : Word)

/-- Narrowing the exact sum is addition of patterns (R8, R12). -/
theorem wrap32_add : wrap32 (s32 a + s32 b) = a + b := by
  rw [wrap32, BitVec.ofInt_add, s32, s32, BitVec.ofInt_toInt, BitVec.ofInt_toInt]

/-- Narrowing the exact difference is subtraction of patterns (R8, R12). -/
theorem wrap32_sub : wrap32 (s32 a - s32 b) = a - b := by
  rw [Int.sub_eq_add_neg, wrap32, BitVec.ofInt_add, BitVec.ofInt_neg, s32, s32, BitVec.ofInt_toInt, BitVec.ofInt_toInt,
    BitVec.sub_eq_add_neg]

/-- Narrowing the exact product is multiplication of patterns (R8, R133). -/
theorem wrap32_product : wrap32 (product a b) = a * b := by
  rw [wrap32, product, BitVec.ofInt_mul, s32, s32, BitVec.ofInt_toInt, BitVec.ofInt_toInt]

/-- The low word of a 64-bit pattern is the number narrowed to 32 bits (R133). -/
theorem lowWord_eq_wrap32 (p : Int) : lowWord p = wrap32 p := by
  apply BitVec.eq_of_toNat_eq
  rw [lowWord, wrap32, BitVec.extractLsb'_toNat, BitVec.toNat_ofInt, BitVec.toNat_ofInt]
  omega

/-- The two words of a product are its 64-bit pattern (R133). -/
theorem highWord_append_lowWord (p : Int) : highWord p ++ lowWord p = BitVec.ofInt 64 p :=
  BitVec.extractLsb'_append_extractLsb' (w := 32) (len := 32)

/-- No product of two 32-bit numbers leaves the signed 64-bit range; the largest is `INT_MIN * INT_MIN = 2^62`. -/
theorem toInt_highWord_append_lowWord_product :
    (highWord (product a b) ++ lowWord (product a b)).toInt = a.toInt * b.toInt := by
  have hlo : -2 ^ 62 ≤ a.toInt * b.toInt := BitVec.le_toInt_mul_toInt
  have hhi : a.toInt * b.toInt ≤ 2 ^ 62 := BitVec.toInt_mul_toInt_le
  rw [highWord_append_lowWord, product, s32, s32]
  exact BitVec.toInt_ofInt_eq_self (by decide) (by omega) (by omega)

/-- The 16.16 product is the one number of 16.16 units that the exact product reaches and whose successor it does not
(R135, D9). -/
theorem fixedProduct_bounds :
    fixedProduct a b * 2 ^ 16 ≤ a.toInt * b.toInt ∧ a.toInt * b.toInt < (fixedProduct a b + 1) * 2 ^ 16 :=
  ⟨Int.ediv_mul_le _ (by decide), Int.lt_ediv_add_one_mul_self _ (by decide)⟩

end

/-! ### What an instruction leaves that stores a result -/

section
variable {s t : State} {p : Word}

/-- What addr, subr and fixmulr leave for the exact result `e`: `e` narrowed in `X`, overflow and underflow from `e`
before narrowing, and nothing else (R131, R132, R135). -/
theorem narrowed_result_leaves {x : Label} {e : Int}
    (ht : t = ((s.setReg x (wrap32 e)).setRanged e).conclude .defined p) :
    t.reg x = wrap32 e ∧ (t.flags.overflow = true ↔ 2 ^ 31 - 1 < e) ∧ (t.flags.underflow = true ↔ e < -2 ^ 31) ∧
      StoresNothing s t [x] ∧ CompareFlagsKept s t ∧ ZeroDivKept s t := by
  subst ht
  refine ⟨by simp, by simp, by simp, ?_, ⟨rfl, rfl, rfl⟩, rfl⟩
  exact storesNothing_conclude (regsKept_setReg s x (wrap32 e)) rfl rfl rfl p

/-- What mulr leaves when it stores `high` in `Y` and then `low` in `Z`: where the two are one register, `low` stays
(R133, D13). -/
theorem register_pair_leaves {y z : Label} {high low : Word}
    (ht : t = ((s.setReg y high).setReg z low).conclude .defined p) :
    t.reg z = low ∧ (y ≠ z → t.reg y = high) ∧ StoresNothing s t [y, z] ∧ SixFlagsKept s t := by
  subst ht
  have hregs : RegsKept s ((s.setReg y high).setReg z low) [y, z] := by
    intro r hr
    obtain ⟨hy, hz⟩ : r ≠ y ∧ r ≠ z := by simpa using hr
    rw [reg_setReg_ne _ low hz, reg_setReg_ne _ high hy]
  refine ⟨by simp, fun hyz => ?_, storesNothing_conclude hregs rfl rfl rfl p, ⟨rfl, rfl, rfl⟩, ⟨rfl, rfl⟩, rfl⟩
  rw [conclude_reg, reg_setReg_ne _ low hyz, reg_setReg_self]

end

/-! ### The obligations -/

/-- Settles O36: the two words are the 64-bit pattern of the product, which has room for it. -/
theorem mulrLeavesTheWholeProduct : Obligations.MulrLeavesTheWholeProduct := by
  intro s x y z
  obtain ⟨hz, hy, hframe⟩ := register_pair_leaves (s := s) (y := y) (z := z)
    (high := highWord (product (s.reg x) (s.reg y))) (low := lowWord (product (s.reg x) (s.reg y))) rfl
  refine ⟨_, rfl, hz.trans ?_, fun hyz => ?_, hframe⟩
  · rw [lowWord_eq_wrap32, wrap32_product]
  · rw [hy hyz, hz, toInt_highWord_append_lowWord_product]

/-- Settles O34: the narrowed sum is the sum of the patterns. -/
theorem addrAddsSigned : Obligations.AddrAddsSigned := by
  intro s x y z
  obtain ⟨hx, hrest⟩ := narrowed_result_leaves (s := s) (x := x) (e := s32 (s.reg y) + s32 (s.reg z)) rfl
  exact ⟨_, rfl, hx.trans (wrap32_add _ _), hrest⟩

/-- Settles O35: the narrowed difference is the difference of the patterns. -/
theorem subrSubtractsSigned : Obligations.SubrSubtractsSigned := by
  intro s x y z
  obtain ⟨hx, hrest⟩ := narrowed_result_leaves (s := s) (x := x) (e := s32 (s.reg y) - s32 (s.reg z)) rfl
  exact ⟨_, rfl, hx.trans (wrap32_sub _ _), hrest⟩

/-- Settles O38: the value before narrowing is the 16.16 product, which its two bounds say is rounded down. -/
theorem fixmulrRoundsDown : Obligations.FixmulrRoundsDown := by
  intro s x y z
  obtain ⟨hle, hlt⟩ := fixedProduct_bounds (s.reg y) (s.reg z)
  exact ⟨_, fixedProduct (s.reg y) (s.reg z), rfl, hle, hlt, narrowed_result_leaves rfl⟩

end Sys2Proof.Machine
end

section
/-! PROOFS. The shifts and rolls by a signed count as operations on patterns; the short encodings of page 2; what an
instruction leaves that writes one register, stores a word or compares; and the obligations of `42_two_register.md`. -/

namespace Sys2Proof.Machine

/-! ### Shifts by a signed count -/

section
variable (v count : Word)

/-- The bound of 32 on the magnitude of the count is none: a longer shift leaves 0 as well (R155, D15). -/
theorem logicalShift_eq :
    logicalShift v count =
      if 0 < s32 count then v <<< (s32 count).natAbs else v >>> (s32 count).natAbs := by
  unfold logicalShift lsl32 lsr32
  split
  · next hout =>
    rw [BitVec.shiftLeft_eq_zero hout, BitVec.ushiftRight_eq_zero hout, ite_self]
    rfl
  · rfl

/-- To the left every bit of a number that a shift of 32 or more moves is outside the word (R156, D15). -/
theorem wrap32_mul_two_pow_of_le (a : Int) {n : Nat} (hn : 32 ≤ n) : wrap32 (a * 2 ^ n) = 0 := by
  have hdvd : (2 ^ 32 : Int) ∣ a * 2 ^ n := Dvd.dvd.mul_left (pow_dvd_pow 2 hn) a
  apply BitVec.eq_of_toNat_eq
  rw [wrap32, BitVec.toNat_ofInt]
  exact congrArg Int.toNat (Int.emod_eq_zero_of_dvd hdvd)

/-- To the right the sign alone, which `asr32` takes from 31 on, is the floor of the quotient (R12). -/
theorem toInt_asr32 (n : Nat) : (asr32 v n).toInt = v.toInt / 2 ^ n := by
  have hlo : -2 ^ 31 ≤ v.toInt := v.le_toInt
  have hhi : v.toInt < 2 ^ 31 := v.toInt_lt
  unfold asr32 s32
  split
  · next hn =>
    have hpow : (2 : Int) ^ 31 ≤ 2 ^ n := pow_le_pow_right₀ (by decide) hn
    split
    · next hneg => exact (Int.ediv_eq_neg_one_of_neg_of_le hneg (by omega)).symm
    · next hpos => exact (Int.ediv_eq_zero_of_lt (by omega) (by omega)).symm
  · have hshift : wrap32 (v.toInt / 2 ^ n) = v.sshiftRight n := by
      rw [BitVec.sshiftRight_eq, Int.shiftRight_eq_div_pow, wrap32, Nat.cast_pow, Nat.cast_ofNat]
    rw [hshift, BitVec.toInt_sshiftRight, Int.shiftRight_eq_div_pow, Nat.cast_pow, Nat.cast_ofNat]

section
variable {count}

/-- A positive count shifts left, and what leaves the word is lost (R155). -/
theorem toNat_logicalShift_of_pos (h : 0 < count.toInt) :
    (logicalShift v count).toNat = v.toNat * 2 ^ count.toInt.natAbs % 2 ^ 32 := by
  rw [logicalShift_eq, s32, if_pos h, BitVec.toNat_shiftLeft, Nat.shiftLeft_eq]

/-- Any other count shifts right by its magnitude, and zeros enter (R155). -/
theorem toNat_logicalShift_of_nonpos (h : count.toInt ≤ 0) :
    (logicalShift v count).toNat = v.toNat / 2 ^ count.toInt.natAbs := by
  rw [logicalShift_eq, s32, if_neg (not_lt.2 h), BitVec.toNat_ushiftRight, Nat.shiftRight_eq_div_pow]

/-- A positive count multiplies by its power of two (R156). -/
theorem arithmeticShift_of_pos (h : 0 < count.toInt) :
    arithmeticShift v count = BitVec.ofInt 32 (v.toInt * 2 ^ count.toInt.natAbs) := by
  rw [arithmeticShift, s32, if_pos h]
  split
  · next hout => exact (wrap32_mul_two_pow_of_le v.toInt hout).symm
  · rfl

/-- Any other count divides by the power of two of its magnitude, rounding down (R156). -/
theorem toInt_arithmeticShift_of_nonpos (h : count.toInt ≤ 0) :
    (arithmeticShift v count).toInt = v.toInt / 2 ^ count.toInt.natAbs := by
  rw [arithmeticShift, s32, if_neg (not_lt.2 h), toInt_asr32]

end

/-! ### Rolls by a signed count -/

theorem rol32_eq_rotateLeft {n : Nat} (hn : n < 32) : rol32 v n = v.rotateLeft n := by
  rw [BitVec.rotateLeft_def, Nat.mod_eq_of_lt hn]
  unfold rol32 lsl32 lsr32
  split
  · next h => rw [h, BitVec.shiftLeft_zero, BitVec.ushiftRight_eq_zero le_rfl, BitVec.or_zero]
  · rfl

/-- A roll to the right is the roll to the left by the count modulo 32 (R157, D16). -/
theorem roll_eq_rotateLeft : roll v count = v.rotateLeft (s32 count % 32).toNat := by
  unfold roll ror32
  split
  · have hleft : (s32 count).natAbs % 32 = (s32 count % 32).toNat := by omega
    rw [hleft, rol32_eq_rotateLeft v (by omega)]
  · have hright : (32 - (s32 count).natAbs % 32) % 32 = (s32 count % 32).toNat := by omega
    rw [hright, rol32_eq_rotateLeft v (by omega)]

/-- Bit `b` goes to bit `b + count` modulo 32; the two cases are a bit that goes round the end of the word and one that
does not. -/
theorem getLsbD_roll {b : Nat} (hb : b < 32) :
    (roll v count).getLsbD (((b : Int) + count.toInt) % 32).toNat = v.getLsbD b := by
  rw [roll_eq_rotateLeft, s32, BitVec.getLsbD_rotateLeft_of_le (by omega)]
  by_cases hround : (((b : Int) + count.toInt) % 32).toNat < (count.toInt % 32).toNat
  · rw [decide_eq_true hround, cond_true]
    congr 1
    omega
  · have hword : (((b : Int) + count.toInt) % 32).toNat < 32 := by omega
    rw [decide_eq_false hround, cond_false, decide_eq_true hword, Bool.true_and]
    congr 1
    omega

/-- Negation in 32 bits is negation modulo 32, for the most negative count as well. -/
theorem toInt_neg_emod_thirtyTwo : (-count).toInt % 32 = -count.toInt % 32 := by
  have hmod : (-count).toInt % (2 ^ 32 : Nat) = -count.toInt % (2 ^ 32 : Nat) := by
    rw [BitVec.toInt_neg, Int.bmod_emod]
  omega

/-- Every bit that the one roll moves, the other moves back. -/
theorem roll_roll_neg : roll (roll v count) (-count) = v := by
  apply BitVec.eq_of_getLsbD_eq
  intro b hb
  have hto : (((b : Int) + count.toInt) % 32).toNat < 32 := by omega
  have hback : (((((b : Int) + count.toInt) % 32).toNat + (-count).toInt) % 32).toNat = b := by
    have hneg := toInt_neg_emod_thirtyTwo count
    omega
  have hmoved := getLsbD_roll (roll v count) (-count) hto
  rw [hback] at hmoved
  rw [hmoved, getLsbD_roll v count hb]

end

/-! ### The short encodings of page 2 -/

/-- `F`, an opcode of page 2 and two labels encode the instruction of that opcode (R86, R88). -/
theorem encodesShort_page2 {op x y : Label} {i : Instr} (hi : decodePage2 op x y = some i) (hk : i.const? = none) :
    EncodesShort (0xF000 + 256 * op.val + 16 * x.val + y.val) i := by
  have hhalf : BitVec.ofNat 16 (0xF000 + 256 * op.val + 16 * x.val + y.val) = halfOfNibbles 15 op x y := by
    apply BitVec.eq_of_toNat_eq
    rw [toNat_halfOfNibbles, BitVec.toNat_ofNat]
    exact Nat.mod_eq_of_lt (by omega)
  have hdec (k : Word) : decode (halfOfNibbles 15 op x y) k = i := (Walk.page2 hi).decode_eq
  rw [EncodesShort, hhalf]
  exact ⟨hdec, by rw [hasConst, hdec, hk]; rfl⟩

/-! ### What an instruction leaves that writes one register -/

section
variable {i : Instr} {s : State} {x : Label} {v p : Word}

/-- `i` writes `v` to register `x` and ends its step, whatever its length. -/
def WritesRegister (i : Instr) (s : State) (x : Label) (v : Word) : Prop :=
  ∃ len, exec i s = (s.setReg x v).advance len

/-- Such an instruction answers, and changes nothing besides. -/
theorem WritesRegister.leaves (h : WritesRegister i s x v) :
    ∃ t, exec i s = .next t ∧ t.reg x = v ∧ StoresNothing s t [x] ∧ SixFlagsKept s t := by
  obtain ⟨len, hexec⟩ := h
  refine ⟨_, hexec, by simp, ?_, ⟨rfl, rfl, rfl⟩, ⟨rfl, rfl⟩, rfl⟩
  exact storesNothing_conclude (regsKept_setReg s x v) rfl rfl rfl _

/-- A register of such an instruction's next state. -/
theorem WritesRegister.reg_eq {t : State} (h : WritesRegister i s x v) (ht : exec i s = .next t) (r : Label) :
    t.reg r = if r = x then v else s.reg r := by
  obtain ⟨len, hexec⟩ := h
  rw [hexec] at ht
  rw [(advance_eq_next_iff _).1 ht, conclude_reg, reg_setReg]

/-- What holds of the register form of an operation for each register, and of its constant form for each constant,
holds of either form with its operand `v`. -/
theorem of_operand_forms {P : Instr → Word → Prop} {registerForm : Label → Instr} {constantForm : Word → Instr}
    (hi : (∃ y, i = registerForm y ∧ v = s.reg y) ∨ i = constantForm v)
    (hregister : ∀ y, P (registerForm y) (s.reg y)) (hconstant : ∀ k, P (constantForm k) k) : P i v := by
  obtain ⟨y, rfl, rfl⟩ | rfl := hi
  · exact hregister y
  · exact hconstant v

theorem writesRegister_lshift (hi : (∃ y, i = .lshiftr x y ∧ v = s.reg y) ∨ i = .lshiftc x v) :
    WritesRegister i s x (logicalShift (s.reg x) v) :=
  of_operand_forms (P := fun i v => WritesRegister i s x (logicalShift (s.reg x) v)) hi
    (fun _ => ⟨_, rfl⟩) fun _ => ⟨_, rfl⟩

theorem writesRegister_ashift (hi : (∃ y, i = .ashiftr x y ∧ v = s.reg y) ∨ i = .ashiftc x v) :
    WritesRegister i s x (arithmeticShift (s.reg x) v) :=
  of_operand_forms (P := fun i v => WritesRegister i s x (arithmeticShift (s.reg x) v)) hi
    (fun _ => ⟨_, rfl⟩) fun _ => ⟨_, rfl⟩

theorem writesRegister_roll (hi : (∃ y, i = .rollr x y ∧ v = s.reg y) ∨ i = .rollc x v) :
    WritesRegister i s x (roll (s.reg x) v) :=
  of_operand_forms (P := fun i v => WritesRegister i s x (roll (s.reg x) v)) hi
    (fun _ => ⟨_, rfl⟩) fun _ => ⟨_, rfl⟩

/-- A load of a word in `MEM` writes the word to its register (R11, R152). -/
theorem writesRegister_readr {y : Label} (h : WordInMem s (s.reg y)) :
    WritesRegister (.readr x y) s x (s.wordAt (s.reg y)) := by
  have hread : s.memRead (s.reg y) = .ok (s.wordAt (s.reg y)) := (memRead_ok_iff s).2 ⟨wordInMem_iff.1 h, rfl⟩
  refine ⟨s.cfg.lenShort, ?_⟩
  change orFault (s.memRead (s.reg y)) _ = _
  rw [hread]
  rfl

/-! ### What a store and a comparison do -/

/-- writer and writec put their word and end their step when all of it is in `MEM` (R151, R182). -/
theorem exec_store_of_wordInMem (hi : StoresTo i s x p) (hp : WordInMem s p) :
    ∃ len, exec i s = (s.putWord p (s.reg x)).advance len := by
  have hwrite (next : State → Result) :
      orFault (s.memWrite p (s.reg x)) next = next (s.putWord p (s.reg x)) := by
    rw [(memWrite_ok_iff s).2 ⟨wordInMem_iff.1 hp, rfl⟩]
    rfl
  obtain ⟨y, rfl, rfl⟩ | rfl := hi
  · exact ⟨s.cfg.lenShort, hwrite _⟩
  · exact ⟨s.cfg.lenLong, hwrite _⟩

/-- cmpr and cmpc write comparison flags and end their step (R154, R186). -/
theorem exec_compare (hi : (∃ y, i = .cmpr x y ∧ v = s.reg y) ∨ i = .cmpc x v) :
    ∃ d len, exec i s = (s.setCompared d).advance len :=
  of_operand_forms (P := fun i _ => ∃ d len, exec i s = (s.setCompared d).advance len) hi
    (fun _ => ⟨_, _, rfl⟩) fun _ => ⟨_, _, rfl⟩

end

/-! ### The obligations -/

/-- Settles O32: the second roll moves every bit back, and the two rolls write the one register. -/
theorem rollBackRestores : Obligations.RollBackRestores := by
  intro s t u x k ht hu r
  have htx := (writesRegister_roll (.inr rfl)).reg_eq ht
  have hux := (writesRegister_roll (.inr rfl)).reg_eq hu
  rw [hux, htx x, if_pos rfl, roll_roll_neg]
  split
  · next hr => rw [hr]
  · next hr => rw [htx, if_neg hr]

/-- Settles O49: a count of either sign shifts the pattern by its magnitude. -/
theorem logicalShiftBySignedCount : Obligations.LogicalShiftBySignedCount := by
  intro s x v i hi
  obtain ⟨t, hexec, hx, hframe⟩ := (writesRegister_lshift hi).leaves
  refine ⟨t, hexec, ?_, ?_, hframe⟩ <;> rw [hx]
  · exact toNat_logicalShift_of_pos _
  · exact toNat_logicalShift_of_nonpos _

/-- Settles O50: a count of either sign scales the signed number by the power of two of its magnitude. -/
theorem arithmeticShiftBySignedCount : Obligations.ArithmeticShiftBySignedCount := by
  intro s x v i hi
  obtain ⟨t, hexec, hx, hframe⟩ := (writesRegister_ashift hi).leaves
  refine ⟨t, hexec, ?_, ?_, hframe⟩ <;> rw [hx]
  · exact arithmeticShift_of_pos _
  · exact toInt_arithmeticShift_of_nonpos _

/-- Settles O51: the roll is a rotation to the left, whose bits the count moves modulo 32. -/
theorem rollMovesEveryBit : Obligations.RollMovesEveryBit := by
  intro s x v i hi
  obtain ⟨t, hexec, hx, hframe⟩ := (writesRegister_roll hi).leaves
  exact ⟨t, hexec, fun b hb => hx ▸ getLsbD_roll (s.reg x) v hb, hframe⟩

/-- Settles O40: the store of a word in `MEM` answers, and its bytes and frame are those of O7. -/
theorem storesWriteOneWord : Obligations.StoresWriteOneWord := by
  intro s x p hp i hi
  obtain ⟨len, hexec⟩ := exec_store_of_wordInMem hi hp
  have hwrite : s.memWrite p (s.reg x) = .ok (s.putWord p (s.reg x)) :=
    (memWrite_ok_iff s).2 ⟨wordInMem_iff.1 hp, rfl⟩
  obtain ⟨h0, h1, h2, h3, hkept, -⟩ := storedWordReadsBack s _ p _ hwrite
  refine ⟨_, hexec, h0, h1, h2, h3, hkept, fun _ _ => rfl, ⟨⟨rfl, rfl, rfl⟩, ⟨rfl, rfl⟩, rfl⟩, ?_⟩
  simp [DefinedEnd]

/-- Settles O41: the word that is loaded, as a number of its four bytes. -/
theorem readrLoadsOneWord : Obligations.ReadrLoadsOneWord := by
  intro s x y h
  obtain ⟨t, hexec, hx, hframe⟩ := (writesRegister_readr h).leaves
  exact ⟨t, hexec, by rw [hx, State.wordAt, toNat_wordOf], hframe⟩

/-- Settles O44, from opcode 3 of page 2. -/
theorem movrCopiesRegister : Obligations.MovrCopiesRegister :=
  fun _ _ _ => ⟨encodesShort_page2 (op := 3) rfl rfl, WritesRegister.leaves ⟨_, rfl⟩⟩

/-- Settles O45, from opcodes 8, 9 and A of page 2 and the bits of the three results. -/
theorem registerLogicIsBitwise : Obligations.RegisterLogicIsBitwise := by
  intro s x y
  refine ⟨⟨encodesShort_page2 (op := 8) rfl rfl, ?_⟩, ⟨encodesShort_page2 (op := 9) rfl rfl, ?_⟩,
    ⟨encodesShort_page2 (op := 10) rfl rfl, ?_⟩⟩
  · obtain ⟨t, hexec, hx, hframe⟩ := WritesRegister.leaves (i := .andr x y) (s := s) ⟨_, rfl⟩
    exact ⟨t, hexec, fun b => by rw [hx, BitVec.getLsbD_and], hframe⟩
  · obtain ⟨t, hexec, hx, hframe⟩ := WritesRegister.leaves (i := .orr x y) (s := s) ⟨_, rfl⟩
    exact ⟨t, hexec, fun b => by rw [hx, BitVec.getLsbD_or], hframe⟩
  · obtain ⟨t, hexec, hx, hframe⟩ := WritesRegister.leaves (i := .xorr x y) (s := s) ⟨_, rfl⟩
    exact ⟨t, hexec, fun b => by rw [hx, BitVec.getLsbD_xor], hframe⟩

/-- Settles O48: the comparison leaves the signed order in the three flags, and writes nothing else. -/
theorem compareTellsSignedOrder : Obligations.CompareTellsSignedOrder := by
  intro s x v i hi
  obtain ⟨d, len, hexec⟩ := exec_compare hi
  obtain ⟨heq, hgt, hlt⟩ := exec_compareFlags hi hexec
  refine ⟨_, hexec, by rw [heq, decide_eq_true_iff], by rw [hgt, decide_eq_true_iff],
    by rw [hlt, decide_eq_true_iff], ?_, ⟨rfl, rfl⟩, rfl⟩
  exact storesNothing_conclude (fun _ _ => rfl) rfl rfl rfl _

end Sys2Proof.Machine
end

section
/-! PROOFS. Two instructions that update the state alike; where `pc` goes beside a register write; what a load and a
jump leave; and the obligations of `43_one_register.md`. -/

namespace Sys2Proof.Machine

/-! ### Instructions that differ in their length alone -/

section
variable {i j : Instr} {s : State}

/-- `i` and `j` make the same update of `s` before they end their steps, each by its own length. -/
def SameUpdate (i j : Instr) (s : State) : Prop :=
  ∃ (u : State) (leni lenj : Word), exec i s = u.advance leni ∧ exec j s = u.advance lenj

/-- The end of a step writes by the length of its instruction nothing but `pc`. -/
theorem SameUpdate.agree_but_pc (h : SameUpdate i j s) :
    ∃ t u, exec i s = .next t ∧ exec j s = .next u ∧ { t with pc := u.pc } = u := by
  obtain ⟨u, leni, lenj, hi, hj⟩ := h
  exact ⟨_, _, hi, hj, rfl⟩

end

/-! ### Where an instruction goes that writes one register -/

section
variable {i : Instr} {s : State} {x : Label} {v k len : Word}

/-- An instruction that writes one register leaves its length added to `pc`, and changes nothing besides (R114). -/
theorem setReg_advance_leaves (h : exec i s = (s.setReg x v).advance len) :
    ∃ t, exec i s = .next t ∧ t.reg x = v ∧ t.pc = s.pc + len ∧ StoresNothing s t [x] ∧ SixFlagsKept s t := by
  obtain ⟨t, ht, hx, hframe⟩ := WritesRegister.leaves ⟨len, h⟩
  have hpc : t.pc = s.pc + len := by
    rw [(advance_eq_next_iff _).1 (h.symm.trans ht), conclude_pc, setReg_pc]
  exact ⟨t, ht, hx, hpc, hframe⟩

/-! ### What a load and a jump leave -/

/-- What follows a load of a word in `MEM` follows with the word (R11). -/
theorem orFault_memRead_of_wordInMem (hk : WordInMem s k) (next : Word → Result) :
    orFault (s.memRead k) next = next (s.wordAt k) := by
  rw [(memRead_ok_iff s).2 ⟨wordInMem_iff.1 hk, rfl⟩]
  rfl

/-- readc writes its constant, or the word at it, to its register (R181, D17). -/
theorem writesRegister_readc (h : s.cfg.readcIsLoad = true → WordInMem s k) :
    WritesRegister (.readc x k) s x (if s.cfg.readcIsLoad then s.wordAt k else k) := by
  refine ⟨s.cfg.lenLong, ?_⟩
  change execReadc x k s = _
  unfold execReadc
  split
  · next hload => exact orFault_memRead_of_wordInMem (h hload) _
  · rfl

/-- A taken jump changes `pc`, and nothing besides (R115). -/
theorem jump_leaves (s : State) (len target : Word) :
    ∃ t, s.jump len target = .next t ∧ t.pc = (if s.cfg.jumpAddsLen then target + len else target) ∧
      StoresNothing s t [] ∧ SixFlagsKept s t := by
  have hframe (p : Word) : StoresNothing s (s.conclude .defined p) [] :=
    storesNothing_conclude (fun _ _ => rfl) rfl rfl rfl p
  exact ⟨_, rfl, rfl, hframe _, ⟨rfl, rfl, rfl⟩, ⟨rfl, rfl⟩, rfl⟩

end

/-! ### The obligations -/

/-- Settles O31: either form of a comparison writes the comparison flags alike, and either form of the others the one
register. -/
theorem constantFormsAgreeWithRegisterForms : Obligations.ConstantFormsAgreeWithRegisterForms := by
  intro s x y p hp
  have hupdate : SameUpdate p.1 p.2 s := by
    simp only [List.mem_cons, List.not_mem_nil, or_false] at hp
    obtain rfl | rfl | rfl | rfl | rfl | rfl | rfl := hp
    · exact ⟨s.setCompared _, _, _, rfl, rfl⟩
    all_goals exact ⟨s.setReg x _, _, _, rfl, rfl⟩
  exact hupdate.agree_but_pc

/-- Settles O43, from what readc writes to its register. -/
theorem readcCopiesOrLoads : Obligations.ReadcCopiesOrLoads :=
  fun _ _ _ h => (writesRegister_readc h).leaves

/-- Settles O46, from the bits of the three results. -/
theorem constantMovesAndLogic : Obligations.ConstantMovesAndLogic := by
  intro s x k
  refine ⟨setReg_advance_leaves rfl, ?_, ?_, ?_⟩
  · obtain ⟨t, hexec, hx, hrest⟩ := setReg_advance_leaves (i := .andc x k) (s := s) rfl
    exact ⟨t, hexec, fun b => by rw [hx, BitVec.getLsbD_and], hrest⟩
  · obtain ⟨t, hexec, hx, hrest⟩ := setReg_advance_leaves (i := .orc x k) (s := s) rfl
    exact ⟨t, hexec, fun b => by rw [hx, BitVec.getLsbD_or], hrest⟩
  · obtain ⟨t, hexec, hx, hrest⟩ := setReg_advance_leaves (i := .xorc x k) (s := s) rfl
    exact ⟨t, hexec, fun b => by rw [hx, BitVec.getLsbD_xor], hrest⟩

/-- Settles O47: inside the word the complement has the other bit. -/
theorem notrComplements : Obligations.NotrComplements := by
  intro s x
  obtain ⟨t, hexec, hx, hrest⟩ := setReg_advance_leaves (i := .notr x) (s := s) rfl
  exact ⟨t, hexec, fun b hb => by rw [hx, BitVec.getLsbD_not, decide_eq_true hb, Bool.true_and], hrest⟩

/-- Settles O52: each of the two is a taken jump. -/
theorem unconditionalJumps : Obligations.UnconditionalJumps :=
  fun s x k => ⟨jump_leaves s s.cfg.lenLong k, jump_leaves s s.cfg.lenShort (s.reg x)⟩

end Sys2Proof.Machine
end

section
/-! PROOFS. What an instruction that only advances leaves, what a conditional jump leaves, and the obligations of
`44_zero_register.md`. -/

namespace Sys2Proof.Machine

/-! ### An advance and a conditional jump -/

/-- An instruction that only advances changes `pc`, and nothing besides (R114). -/
theorem advance_leaves (s : State) (len : Word) :
    ∃ t, s.advance len = .next t ∧ t.pc = s.pc + len ∧ StoresNothing s t [] ∧ SixFlagsKept s t := by
  have hframe : StoresNothing s (s.conclude .defined (s.pc + len)) [] :=
    storesNothing_conclude (fun _ _ => rfl) rfl rfl rfl _
  exact ⟨_, rfl, rfl, hframe, ⟨rfl, rfl, rfl⟩, ⟨rfl, rfl⟩, rfl⟩

/-- A conditional jump is a taken jump where its condition is 1 and an advance where it is 0, and changes nothing
besides `pc` either way (R114, R115). -/
theorem jump_or_advance_leaves (s : State) (c : Bool) (len target : Word) :
    ∃ t, (if c then s.jump len target else s.advance len) = .next t ∧
      t.pc = (if c then (if s.cfg.jumpAddsLen then target + len else target) else s.pc + len) ∧
      StoresNothing s t [] ∧ SixFlagsKept s t := by
  cases c with
  | true => exact jump_leaves s len target
  | false => exact advance_leaves s len

/-! ### The obligations -/

/-- Settles O53: each of the three is the conditional jump on its own flag. -/
theorem conditionalJumpsTestOneFlag : Obligations.ConditionalJumpsTestOneFlag := by
  intro s k p hp
  simp only [List.mem_cons, List.not_mem_nil, or_false] at hp
  obtain rfl | rfl | rfl := hp
  · exact jump_or_advance_leaves s s.flags.equal s.cfg.lenLong k
  · exact jump_or_advance_leaves s s.flags.greaterThan s.cfg.lenLong k
  · exact jump_or_advance_leaves s s.flags.lessThan s.cfg.lenLong k

/-- Settles O54: nop is the advance alone. -/
theorem nopOnlyAdvances : Obligations.NopOnlyAdvances :=
  fun s => advance_leaves s s.cfg.lenShort

end Sys2Proof.Machine
end
